-- ==== Sys2Proof/Word.lean ====
section
/-! DEFINITION. The words of the Pulse Encoder: one channel value, and the wire word of one colour. -/

namespace Sys2Proof

/-- One 8-bit channel value of a Color (10_state.md R30, 30_encoding.md R70). -/
abbrev Byte := BitVec 8

/-- The 24 bits of one colour, packed either as `COLOR_RGB` (R70) or as `FRAME24` (R71). -/
abbrev Word24 := BitVec 24

end Sys2Proof
end

