-- ==== Sys2Proof/Config.lean ====
section
/-! DEFINITION. What is fixed while the block exists: the parameters of 00_scope.md R8 to R15 that a step reads, the
widths among them, and the values no rule fixes (constants with no body). -/

namespace Sys2Proof

/-- The answer of the pin driver to one transition (R19, R133). -/
inductive Answer where
  | ok
  | fault
  deriving DecidableEq, Repr, Inhabited

/-- The parameters a step reads, before they are checked. -/
structure Params where
  /-- `L_MULT`, calibration units in a long duration (R8). -/
  lMult : Nat
  /-- `S_MULT`, calibration units in a short duration (R8). -/
  sMult : Nat
  /-- `RESET_UNITS`, calibration units in the reset/latch gap (R9). -/
  resetUnits : Nat
  /-- `CAL_STEP`, added to CAL after each WRITE that returns Ok (R12). -/
  calStep : Nat
  /-- `GAP_SET_LOW`, whether the gap opens with an explicit SET_LOW (R13). -/
  gapSetLow : Bool
  /-- `W_CAL`, the width in bits of the calibration constant (R10). -/
  wCal : Nat
  deriving DecidableEq, Repr

/-- `W_DLY = W_CAL + 9`, the width of a delay argument, for a `W_CAL` (R10). -/
def delayWidth (wCal : Nat) : Nat :=
  wCal + 9

/-- `W_DLY` of a configuration (R10). -/
def Params.wDly (p : Params) : Nat :=
  delayWidth p.wCal

/-- The constraints of R8, R9 and R10: `S_MULT ≥ 1`, `L_MULT > S_MULT`, the 60 % high-phase fraction (met with
equality too), a positive gap, and multipliers of at most 511. -/
def Params.wf (p : Params) : Bool :=
  decide (1 ≤ p.sMult) && decide (p.sMult < p.lMult) && decide (6 * (p.lMult + p.sMult) ≤ 10 * p.lMult) &&
    decide (1 ≤ p.resetUnits) && decide (p.lMult ≤ 511) && decide (p.resetUnits ≤ 511)

/-- A legal configuration. An illegal one cannot be built: 93_implementation_defined.md U3, 'refuse the
configuration'. -/
structure Config where
  params : Params
  legal : params.wf = true
  deriving DecidableEq, Repr

/-- The values taken: `L_MULT = 2`, `S_MULT = 1` (R8), `RESET_UNITS = 300` (R9), `CAL_STEP = 0` (R12),
`GAP_SET_LOW = true` (R13), `W_CAL = 32` (R10). -/
def Config.taken : Config where
  params := ⟨2, 1, 300, 0, true, 32⟩
  legal := by decide

/-- The calibration constant the block is constructed with at reset: the argument of the construction, port `cal_init`
(10_state.md R33, R34), a word of the width given. The spec gives it no number. DESIGN CHOICE (log 2): no value, so no
proof can rest on one. -/
opaque Config.calInit : (w : Nat) → BitVec w

/-- FREE VALUE (log 3): the pin's answer to a transition past the end of the answers listed in State. 'A draw per
transition, under no law' (R19, R133). -/
opaque Config.freeAnswer : Nat → Answer

/-- FREE VALUE (log 4): STATUS.FAULT while a reset is asserted, when 'every element is unspecified' (R33). -/
opaque Config.freeFault : Nat → Bool

end Sys2Proof
end

