-- ==== Sys2Proof/Syntax.lean ====
section
/-! DEFINITION. The ten operations of the block (00_scope.md R2), one constructor per row of spec/opcode_table.json. -/

namespace Sys2Proof

/-- A Color: 'three 8-bit channels (red, green, blue), no alpha' (30_encoding.md R70). -/
structure Color where
  r : Byte
  g : Byte
  b : Byte
  deriving DecidableEq, Repr

inductive Instr where
  /-- CONSTRUCT (R90). The pin operand is a capability, not a value; `Instr.wf` bounds `cal` by `W_CAL` bits. -/
  | construct (cal : Nat)
  /-- WRITE (R91, R92). -/
  | write (colors : List Color)
  /-- COLOR (R113). -/
  | color (r g b : Byte)
  /-- BYTE (R112). -/
  | byte (v : Byte)
  /-- SYM1 (R110). -/
  | sym1
  /-- SYM0 (R111). -/
  | sym0
  /-- GAP (R114). -/
  | gap
  /-- SET_HIGH (R130). -/
  | setHigh
  /-- SET_LOW (R131). -/
  | setLow
  /-- DELAY of `n` cycles, `n` a natural number (R17, R132); `Instr.wf` bounds it by `W_DLY` bits. -/
  | delay (n : Nat)
  deriving DecidableEq, Repr

/-- The formats of spec/opcode_table.json: the spaces within which an operation's bits have their meaning. -/
inductive Format where
  | hostop
  | colorRgb
  | byte8
  | symbol
  | gap
  | pinop
  | delayop
  deriving DecidableEq, Repr

/-- The format of each row of the table. -/
def Instr.format : Instr → Format
  | .construct _ => .hostop
  | .write _ => .hostop
  | .color _ _ _ => .colorRgb
  | .byte _ => .byte8
  | .sym1 => .symbol
  | .sym0 => .symbol
  | .gap => .gap
  | .setHigh => .pinop
  | .setLow => .pinop
  | .delay _ => .delayop

/-- An operation word: a format, and the bytes of the operation within it, least significant byte first.
DESIGN CHOICE (log 6): the spec has no command word. -/
structure OpWord where
  fmt : Format
  bytes : List Byte
  deriving DecidableEq, Repr

end Sys2Proof
end

