-- ==== Sys2Proof/WellFormed.lean ====
section
/-! DEFINITION. Which operations are well formed. Every Color, bit and length is legal (30_encoding.md R85) and the
operand types hold the widths of colours, so the checks are those of the two operands whose width is a parameter. -/

namespace Sys2Proof

/-- With `W_CAL = wCal`: CONSTRUCT's operand is 'an unsigned W_CAL-bit calibration constant' (R90), and DELAY's is `n`,
unsigned, `W_DLY` bits (R132). -/
def Instr.wf (wCal : Nat) : Instr → Bool
  | .construct cal => decide (cal < 2 ^ wCal)
  | .write _ => true
  | .color _ _ _ => true
  | .byte _ => true
  | .sym1 => true
  | .sym0 => true
  | .gap => true
  | .setHigh => true
  | .setLow => true
  | .delay n => decide (n < 2 ^ delayWidth wCal)

end Sys2Proof
end

