-- ==== Sys2Proof/Decode.lean ====
section
/-! DEFINITION. Operation words: the decoder, total on any format and bytes, and the encoder. Both take `W_CAL`, from
which the widths of the operands of CONSTRUCT and DELAY follow (00_scope.md R10). The bits of a row are
those of spec/opcode_table.json and 30_encoding.md R70 to R84, bit 0 the least significant bit of the first byte. The
spec lays no operation out in bytes: byte order, operand places and the marks around the colours of a WRITE are
DESIGN CHOICE (log 6). -/

namespace Sys2Proof

/-- Why a word is no operation. -/
inductive DecodeError where
  /-- The number of bytes is not the format's. -/
  | wrongLength
  /-- A selecting byte has a bit set above its one selecting bit. -/
  | reservedSelector
  /-- The byte before a colour of a WRITE is neither 1 (a colour follows) nor 0 (the sequence ends). -/
  | badColorMark
  /-- A calibration constant has a bit set above its `W_CAL` bits. -/
  | calTooWide
  /-- A delay argument has a bit set above its `W_DLY` bits. -/
  | delayTooWide
  deriving DecidableEq, Repr

/-- The low `k` bytes of `n`, least significant first. -/
def leBytes : Nat → Nat → List Byte
  | 0, _ => []
  | k + 1, n => BitVec.ofNat 8 n :: leBytes k (n / 256)

/-- The number whose bytes, least significant first, are given. -/
def leNat : List Byte → Nat
  | [] => 0
  | b :: bs => b.toNat + 256 * leNat bs

/-- The whole bytes that `k` bits take. -/
def bytesFor (k : Nat) : Nat :=
  (k + 7) / 8

/-- Bytes of a CONSTRUCT's `cal` operand: `W_CAL` bits. -/
def calBytes (wCal : Nat) : Nat :=
  bytesFor wCal

/-- Bytes of a DELAY's operand: `W_DLY` bits. -/
def delayBytes (wCal : Nat) : Nat :=
  bytesFor (delayWidth wCal)

/-- The colours of a WRITE, index 0 first: before each colour a byte 1, then its packed `COLOR_RGB` (R70); after the
last colour a byte 0. So the length, 'any natural number' (R15), needs no width. -/
def decodeColors : List Byte → Except DecodeError (List Color)
  | [] => .error .wrongLength
  | m :: rest =>
    if m = 0 then (if rest = [] then .ok [] else .error .wrongLength)
    else if m = 1 then
      match rest with
      | b :: g :: r :: tail =>
        match decodeColors tail with
        | .ok cs => .ok (⟨r, g, b⟩ :: cs)
        | .error e => .error e
      | _ => .error .wrongLength
    else .error .badColorMark

/-- One selecting bit in a byte of its own. -/
def decodeSelector (b : Byte) : Except DecodeError Bool :=
  if b = 0 then .ok false else if b = 1 then .ok true else .error .reservedSelector

/-- Format HOSTOP: `op` 0 is CONSTRUCT, 1 is WRITE (R81). -/
def decodeHostop (wCal : Nat) : List Byte → Except DecodeError Instr
  | [] => .error .wrongLength
  | op :: rest =>
    match decodeSelector op with
    | .error e => .error e
    | .ok false =>
      if rest.length = calBytes wCal then
        if leNat rest < 2 ^ wCal then .ok (.construct (leNat rest)) else .error .calTooWide
      else .error .wrongLength
    | .ok true =>
      match decodeColors rest with
      | .ok cs => .ok (.write cs)
      | .error e => .error e

/-- Format COLOR_RGB: red in bits 23:16, green in 15:8, blue in 7:0 (R70). -/
def decodeColorRgb : List Byte → Except DecodeError Instr
  | [b, g, r] => .ok (.color r g b)
  | _ => .error .wrongLength

/-- Format BYTE8. -/
def decodeByte8 : List Byte → Except DecodeError Instr
  | [v] => .ok (.byte v)
  | _ => .error .wrongLength

/-- Format SYMBOL: the wire bit selects (R73). -/
def decodeSymbol : List Byte → Except DecodeError Instr
  | [b] =>
    match decodeSelector b with
    | .ok bit => .ok (if bit then .sym1 else .sym0)
    | .error e => .error e
  | _ => .error .wrongLength

/-- Format GAP: no bits (R80). -/
def decodeGap : List Byte → Except DecodeError Instr
  | [] => .ok .gap
  | _ => .error .wrongLength

/-- Format PINOP: `level` 1 is SET_HIGH, 0 is SET_LOW (R82). -/
def decodePinop : List Byte → Except DecodeError Instr
  | [b] =>
    match decodeSelector b with
    | .ok level => .ok (if level then .setHigh else .setLow)
    | .error e => .error e
  | _ => .error .wrongLength

/-- Format DELAYOP: the cycle count, `W_DLY` bits (R82). -/
def decodeDelayop (wCal : Nat) (bs : List Byte) : Except DecodeError Instr :=
  if bs.length = delayBytes wCal then
    if leNat bs < 2 ^ delayWidth wCal then .ok (.delay (leNat bs)) else .error .delayTooWide
  else .error .wrongLength

/-- The decoder. -/
def decode (wCal : Nat) (w : OpWord) : Except DecodeError Instr :=
  match w.fmt with
  | .hostop => decodeHostop wCal w.bytes
  | .colorRgb => decodeColorRgb w.bytes
  | .byte8 => decodeByte8 w.bytes
  | .symbol => decodeSymbol w.bytes
  | .gap => decodeGap w.bytes
  | .pinop => decodePinop w.bytes
  | .delayop => decodeDelayop wCal w.bytes

/-- The word of a row of spec/opcode_table.json, its bits `w` (`nbits` of them, in whole bytes), operand bits above
zero. The bits alone do not name the format, so the number of bytes chooses it; of the one-byte formats HOSTOP, the
host's own, takes the words 0 and 1, and BYTE8 the rest. DESIGN CHOICE (log 7). -/
def tableWord (wCal nbits w : Nat) : OpWord :=
  match (nbits + 7) / 8 with
  | 0 => ⟨.gap, []⟩
  | 1 =>
    if w = 0 then ⟨.hostop, leBytes (1 + calBytes wCal) 0⟩
    else if w = 1 then ⟨.hostop, leBytes 2 1⟩
    else ⟨.byte8, leBytes 1 w⟩
  | 3 => ⟨.colorRgb, leBytes 3 w⟩
  | k => ⟨.delayop, leBytes (max k (delayBytes wCal)) w⟩

/-- The operation the decoder reads from a word of the opcode table, whose widths are those of `W_CAL = 32`, the value
taken. -/
def decodeTableWord (nbits w : Nat) : Option Instr :=
  match decode Config.taken.params.wCal (tableWord Config.taken.params.wCal nbits w) with
  | .ok i => some i
  | .error _ => none

/-- The bytes of a WRITE's colours. -/
def encodeColors : List Color → List Byte
  | [] => [0]
  | c :: cs => 1 :: c.b :: c.g :: c.r :: encodeColors cs

/-- The encoder: the word of an operation, from the same tables. -/
def encode (wCal : Nat) : Instr → OpWord
  | .construct cal => ⟨.hostop, 0 :: leBytes (calBytes wCal) cal⟩
  | .write cs => ⟨.hostop, 1 :: encodeColors cs⟩
  | .color r g b => ⟨.colorRgb, [b, g, r]⟩
  | .byte v => ⟨.byte8, [v]⟩
  | .sym1 => ⟨.symbol, [1]⟩
  | .sym0 => ⟨.symbol, [0]⟩
  | .gap => ⟨.gap, []⟩
  | .setHigh => ⟨.pinop, [1]⟩
  | .setLow => ⟨.pinop, [0]⟩
  | .delay n => ⟨.delayop, leBytes (delayBytes wCal) n⟩

/-- How many bytes an operation's word has. -/
def Instr.wordLength (wCal : Nat) : Instr → Nat
  | .construct _ => 1 + calBytes wCal
  | .write cs => 2 + 4 * cs.length
  | .color _ _ _ => 3
  | .byte _ => 1
  | .sym1 => 1
  | .sym0 => 1
  | .gap => 0
  | .setHigh => 1
  | .setLow => 1
  | .delay _ => delayBytes wCal

end Sys2Proof
end

