-- ==== Sys2Proof/Machine/State.lean ====
section
/-! DEFINITION. The state of the block as plain data (10_state.md), its state after reset (R33), and the reasons a step
can stop. -/

namespace Sys2Proof.Machine

/-- A level the block can ask of the pin (R130, R131). -/
inductive Level where
  | low
  | high
  deriving DecidableEq, Repr

/-- LINE: 'Low, High, or Unknown' (10_state.md R22). -/
inductive Line where
  | low
  | high
  | unknown
  deriving DecidableEq, Repr

/-- MODE (R23). -/
inductive Mode where
  | absent
  | idle
  | transmitting
  deriving DecidableEq, Repr

/-- The channel slot `ch` of a position: 0 green, 1 red, 2 blue (R24). Value 3 does not exist (R85). -/
inductive Channel where
  | green
  | red
  | blue
  deriving DecidableEq, Repr

/-- The stage `stg` within a symbol: SH, DH, SL, DL (R24). -/
inductive BitStage where
  | setHigh
  | delayHigh
  | setLow
  | delayLow
  deriving DecidableEq, Repr

/-- The stage within the gap: GS, GD (R24). -/
inductive GapStage where
  | setLow
  | delay
  deriving DecidableEq, Repr

/-- SEQ's values: `Bit(i, ch, k, stg)` and `Gap(stg)` (R24). -/
inductive Pos where
  | bit (i : Nat) (ch : Channel) (k : Fin 8) (stg : BitStage)
  | gap (stg : GapStage)
  deriving DecidableEq, Repr

/-- An event of the trace (00_scope.md R18): `set high ok` is H, `set low ok` is L, `set high fault` is H!,
`set low fault` is L!, `delay n` is D(n). -/
inductive Event where
  | set (l : Level) (a : Answer)
  | delay (n : Nat)
  deriving DecidableEq, Repr

/-- The result of a host operation (R26, 30_encoding.md R84). -/
inductive Result where
  | ok
  | pinFault
  deriving DecidableEq, Repr

/-- Where a step can only stop. All three arise only in states no run from reset reaches (State.Inv rules them out). -/
inductive Fault where
  /-- Raised by the sequencer at the first position of a colour: no colour at the index, 'an index i ≥ len is never
  read' (20_memory.md R56). Safe. -/
  | colorIndexOutOfRange
  /-- Raised by COLOR, BYTE, SYM1, SYM0, GAP and the sequencer's DELAY: CAL holds no value (R21). Safe. -/
  | calHasNoValue
  /-- Raised by the sequencer's DELAY in a symbol: SHREG holds no value (R28). Safe. -/
  | shregHasNoValue
  deriving DecidableEq, Repr

/-- Where an operation has no meaning in this state. -/
inductive Refusal where
  /-- Raised by exec's arm for an instruction that has no meaning yet. Safe. -/
  | notModelled (mnemonic : String)
  /-- Raised by CONSTRUCT outside Absent and WRITE outside Idle: 'In any other mode the operation has no step'
  (40_host_operations.md R102). Safe. -/
  | notAdmitted
  /-- Raised by a step when HOST's word is a micro-operation or a primitive: 'HOST cannot issue them on their own'
  (41_wire_symbols.md). Safe. -/
  | hostCannotIssue
  /-- Raised by a step when HOST's word decodes to no operation. Safe. -/
  | undecodable (e : DecodeError)
  deriving DecidableEq, Repr

/-- The machine. The fields down to `shreg` and `rst` are the block's state (R20, R23); `len` and `colors` are the
operands of the running WRITE (R30, R63); the rest are ghosts, inputs and the configuration (INVENTORY.md). -/
structure State where
  /-- CAL, `W_CAL` bits (R21): State.Inv bounds it (log 9); no value before construction. -/
  cal : Option Nat
  /-- LINE (R22). -/
  line : Line
  /-- MODE (R23); STATUS.BUSY is a view of it (R25). -/
  mode : Mode
  /-- SEQ (R24); a value only while transmitting. -/
  seq : Option Pos
  /-- STATUS.FAULT (R25). -/
  fault : Bool
  /-- DCNT, `W_DLY` bits (R27): State.PortInv bounds it (log 9); a value only inside a DELAY. -/
  dcnt : Option Nat
  /-- SHREG (R28); a value only inside a WRITE. -/
  shreg : Option Word24
  /-- The level of `rst` last sampled (R34): 1 while a reset is asserted (R23). -/
  rst : Bool
  /-- Length of the running WRITE's sequence (R34 `len`). -/
  len : Nat
  /-- The running WRITE's colour sequence, a snapshot (R63). -/
  colors : List Color
  /-- The trace T, in issue order (R18). Ghost. -/
  trace : List Event
  /-- Results returned to HOST, oldest first (R26). Ghost. -/
  results : List Result
  /-- HOST's operation words not yet taken. Input. -/
  pending : List OpWord
  /-- PIN's answers to the next transitions. Input. -/
  answers : List Answer
  /-- How many free values have been drawn. -/
  draws : Nat
  /-- The levels of `rst` at the next steps. Input. -/
  rstIn : List Bool
  /-- Port `cal_init`, `W_CAL` bits (R34): State.Inv bounds it (log 9). Input. -/
  calInit : Nat
  /-- The configuration (R8 to R15): written by no step. -/
  cfg : Config
  deriving DecidableEq, Repr

/-- The machine right after reset: the table of 10_state.md R33. The release of `rst` has performed CONSTRUCT with
`cal_init` (70_reset_and_hazards.md R180). No input is scheduled (log 2, 3, 4, 8, 11). -/
def State.reset : State where
  cal := some (Config.calInit Config.taken.params.wCal).toNat
  line := .low
  mode := .idle
  seq := none
  fault := false
  dcnt := none
  shreg := none
  rst := false
  len := 0
  colors := []
  trace := [.set .low .ok]
  results := [.ok]
  pending := []
  answers := []
  draws := 0
  rstIn := []
  calInit := (Config.calInit Config.taken.params.wCal).toNat
  cfg := Config.taken

/-- Before any construction: 'MODE = Absent, LINE = Unknown, and CAL, SEQ, DCNT and SHREG hold no value'
(10_state.md R33); FAULT is unspecified, a free value (log 4). -/
def State.beforeConstruction (cfg : Config) (calInit : Nat) : State where
  cal := none
  line := .unknown
  mode := .absent
  seq := none
  fault := Config.freeFault 0
  dcnt := none
  shreg := none
  rst := false
  len := 0
  colors := []
  trace := []
  results := []
  pending := []
  answers := []
  draws := 1
  rstIn := []
  calInit := calInit
  cfg := cfg

end Sys2Proof.Machine
end

