-- ==== Sys2Proof/Machine/Flags.lean ====
section
/-! DEFINITION. STATUS (10_state.md R25): its two flags, who may read it, and the codes of results (R84). There are no
condition codes. -/

namespace Sys2Proof.Machine

/-- STATUS, two one-bit flags. -/
structure Status where
  busy : Bool
  fault : Bool
  deriving DecidableEq, Repr

/-- BUSY: '1 exactly when MODE = Transmitting' (R25). -/
def State.busy (s : State) : Bool :=
  decide (s.mode = .transmitting)

/-- STATUS as the reference ports `busy` and `fault` show it in every cycle (R31, R34). -/
def State.status (s : State) : Status :=
  ⟨s.busy, s.fault⟩

/-- STATUS as HOST reads it at the transaction level: between operations only, since HOST is blocked while one runs
(R31, 20_memory.md R65). -/
def State.statusForHost (s : State) : Option Status :=
  if s.busy then none else some s.status

/-- The start of a WRITE and a CONSTRUCT that returns Ok clear FAULT (R25). -/
def State.clearFault (s : State) : State :=
  { s with fault := false }

/-- A WRITE that ends with PinFault sets FAULT (R25). -/
def State.setFault (s : State) : State :=
  { s with fault := true }

/-- Numeric codes of the results: Ok 0, PinFault 1 (30_encoding.md R84). -/
def Result.code : Result → BitVec 1
  | .ok => 0
  | .pinFault => 1

/-- Every `PinError` maps to PinFault (R84). -/
def resultOfAnswer : Answer → Result
  | .ok => .ok
  | .fault => .pinFault

end Sys2Proof.Machine
end

