-- ==== Sys2Proof/Machine/Operands.lean ====
section
/-! DEFINITION. What operations read: the colour at an index, the wire word and its bits, and the three products that
are the block's only delay arguments. -/

namespace Sys2Proof.Machine

/-- The wire word `W = g ‖ r ‖ b` (20_memory.md R54, 30_encoding.md R71). -/
def wireWord (c : Color) : Word24 :=
  c.g ++ c.r ++ c.b

/-- A colour packed for the reference port `col_rgb`: `r ‖ g ‖ b` (R70). -/
def packRgb (c : Color) : Word24 :=
  c.r ++ c.g ++ c.b

/-- From `COLOR_RGB` to `FRAME24`: `W = c[15:8] ‖ c[23:16] ‖ c[7:0]` (R71). -/
def rgbToWire (c : Word24) : Word24 :=
  c.extractLsb' 8 8 ++ c.extractLsb' 16 8 ++ c.extractLsb' 0 8

/-- `MemRead(i, 3)`: the colour at index `i` of the current call's sequence (R56). -/
def memRead (i : Nat) (s : State) : Option Color :=
  s.colors[i]?

/-- The number of a channel slot: green 0, red 1, blue 2 (10_state.md R24). -/
def Channel.slot : Channel → Nat
  | .green => 0
  | .red => 1
  | .blue => 2

/-- The wire bit at a position: `W[23 − 8×ch − (7 − k)]` (10_state.md R28). -/
def wireBit (w : Word24) (ch : Channel) (k : Fin 8) : Bool :=
  w.getLsbD (23 - 8 * ch.slot - (7 - k.val))

/-- The bits of a channel value in wire order, `v[7]` first (41_wire_symbols.md R112). Each bit is the exact bit, and
nothing is compared with a threshold (R115). -/
def byteBits (v : Byte) : List Bool :=
  [v.getLsbD 7, v.getLsbD 6, v.getLsbD 5, v.getLsbD 4, v.getLsbD 3, v.getLsbD 2, v.getLsbD 1, v.getLsbD 0]

/-- `long = L_MULT × CAL` (30_encoding.md R74): an exact natural number (41_wire_symbols.md R116). -/
def longCycles (cfg : Config) (c : Nat) : Nat :=
  cfg.params.lMult * c

/-- `short = S_MULT × CAL` (R74). -/
def shortCycles (cfg : Config) (c : Nat) : Nat :=
  cfg.params.sMult * c

/-- `RESET_UNITS × CAL` (R74, R80). -/
def gapCycles (cfg : Config) (c : Nat) : Nat :=
  cfg.params.resetUnits * c

/-- `hi(bit)`: long for a 1, short for a 0 (40_host_operations.md R92, 30_encoding.md R73). -/
def hiCycles (cfg : Config) (c : Nat) (bit : Bool) : Nat :=
  if bit then longCycles cfg c else shortCycles cfg c

/-- `lo(bit)`: short for a 1, long for a 0 (R92, R73). -/
def loCycles (cfg : Config) (c : Nat) (bit : Bool) : Nat :=
  if bit then shortCycles cfg c else longCycles cfg c

/-- `(CAL + CAL_STEP) mod 2^W_CAL` (40_host_operations.md R98). -/
def nextCal (cfg : Config) (c : Nat) : Nat :=
  (c + cfg.params.calStep) % 2 ^ cfg.params.wCal

/-- Where a WRITE of `len` colours opens its gap: `Gap(GS)` if `GAP_SET_LOW`, else `Gap(GD)` (R92). -/
def gapStart (cfg : Config) : Pos :=
  if cfg.params.gapSetLow then .gap .setLow else .gap .delay

/-- Where a WRITE of `len` colours starts (R92). -/
def startPos (cfg : Config) (len : Nat) : Pos :=
  if 0 < len then .bit 0 .green 7 .setHigh else gapStart cfg

/-- `next(i, ch, k)` (41_wire_symbols.md R117). -/
def nextPos (cfg : Config) (len i : Nat) (ch : Channel) (k : Fin 8) : Pos :=
  match k with
  | ⟨j + 1, h⟩ => .bit i ch ⟨j, Nat.lt_of_succ_lt h⟩ .setHigh
  | ⟨0, _⟩ =>
    match ch with
    | .green => .bit i .red 7 .setHigh
    | .red => .bit i .blue 7 .setHigh
    | .blue => if i + 1 < len then .bit (i + 1) .green 7 .setHigh else gapStart cfg

end Sys2Proof.Machine
end

