-- ==== Sys2Proof/Machine/Ops.lean ====
section
/-! DEFINITION. The named operations every meaning is built from: drawing PIN's answer, a transition, a delay, the
start and the two ends of a WRITE (its completion, and the abort of PinFault), a reset. -/

namespace Sys2Proof.Machine

/-- The level a transition answered ok leaves on the line (10_state.md R22). -/
def Level.toLine : Level → Line
  | .low => .low
  | .high => .high

/-- PIN's answer to the `k`-th transition from here, counted from 0: the listed answer, or past the end of the list a
free value (42_pin_and_delay_primitives.md R133; log 3). -/
def State.answerAt (s : State) (k : Nat) : Answer :=
  match s.answers[k]? with
  | some a => a
  | none => Config.freeAnswer (s.draws + (k - s.answers.length))

/-- The state once PIN has answered `n` transitions. -/
def State.consume (s : State) (n : Nat) : State :=
  { s with answers := s.answers.drop n, draws := s.draws + (n - s.answers.length) }

/-- What a transition does once PIN has answered `a`: answered ok the line takes the level, answered fault it is
Unknown; the event is emitted (R130, R131). It does not read LINE (R139). -/
def State.answered (s : State) (l : Level) (a : Answer) : State :=
  { s with
    line := match a with
      | .ok => l.toLine
      | .fault => .unknown
    trace := s.trace ++ [.set l a] }

/-- `PinSet(level)` (R130, R131): the state after the transition, and the answer returned. -/
def pinSet (l : Level) (s : State) : State × Answer :=
  ((s.consume 1).answered l (s.answerAt 0), s.answerAt 0)

/-- `Delay(n)` (R132): one step, which emits `D(n)` and changes no other state. DCNT holds no value outside a DELAY
(10_state.md R27). Every DELAY returns (R135). -/
def delayFor (n : Nat) (s : State) : State :=
  { s with trace := s.trace ++ [.delay n], dcnt := none }

/-- Goes on after a transition answered ok; a fault ends what follows (R151, R152). -/
def andThen (r : State × Answer) (f : State → State × Answer) : State × Answer :=
  match r.2 with
  | .ok => f r.1
  | .fault => r

/-- What ends with a WRITE: SEQ, DCNT and SHREG lose their values (R24, R27, R28), and its operands are gone (R30). -/
def State.endWrite (s : State) : State :=
  { s with seq := none, dcnt := none, shreg := none, len := 0, colors := [] }

/-- The start of a WRITE in Idle (40_host_operations.md R92). -/
def State.startWrite (s : State) (len : Nat) (colors : List Color) : State :=
  { s.clearFault with mode := .transmitting, seq := some (startPos s.cfg len), len := len, colors := colors }

/-- TAKING THE EXCEPTION: `raise PinFault()` (60_exceptions.md R152, R153). The WRITE ends at once with no further
event; MODE Idle; SEQ, DCNT and SHREG hold no value; LINE Unknown; CAL unchanged; FAULT 1; result PinFault. There is
no vector and nothing is saved (R158). -/
def State.raisePinFault (s : State) : State :=
  { s.endWrite.setFault with mode := .idle, line := .unknown, results := s.results ++ [.pinFault] }

/-- The last step of a WRITE that returns Ok (R92, `Gap(GD)`): CAL steps (R98), SEQ loses its value, MODE Idle. There
is no return from an exception (R159): control is with HOST after either end. -/
def State.completeWrite (s : State) : State :=
  { s.endWrite with mode := .idle, cal := s.cal.map (nextCal s.cfg), results := s.results ++ [.ok] }

/-- The end of a micro-operation: a fault answered inside one ends the whole WRITE (41_wire_symbols.md, R152). -/
def settle (r : State × Answer) : State :=
  match r.2 with
  | .ok => r.1
  | .fault => r.1.raisePinFault

/-- A meaning that reads CAL. -/
def withCal (s : State) (f : Nat → State) : Host.Outcome State Fault Refusal :=
  match s.cal with
  | some c => .next (f c)
  | none => .fault .calHasNoValue

/-- The body of CONSTRUCT once PIN has answered (40_host_operations.md R90). The trace is 'since construction' (R18) and
is 'the single event L' after it (R33), so it starts anew (DEDUCED, log 11). -/
def State.constructed (s : State) (cal : Nat) (a : Answer) : State :=
  let t := { s with trace := [] }.answered .low a
  match a with
  | .ok => { t.clearFault with cal := some cal, mode := .idle, results := s.results ++ [.ok] }
  | .fault => { t with results := s.results ++ [.pinFault] }

/-- A reset is asserted (70_reset_and_hazards.md R183): a running WRITE ends with no result and no event, MODE Absent,
and every element is unspecified (10_state.md R33): LINE Unknown, the others without a value, FAULT a free value
(log 4). -/
def State.assertReset (s : State) : State :=
  { s.endWrite with
    mode := .absent, line := .unknown, cal := none, rst := true
    fault := Config.freeFault s.draws, draws := s.draws + 1 }

/-- The level of `rst` at this step (R34); past the end of the schedule none is asserted (log 4). -/
def State.rstNow (s : State) : Bool :=
  s.rstIn.headD false

/-- The schedule after this step. -/
def State.popRst (s : State) : State :=
  { s with rstIn := s.rstIn.tail }

/-- Whether an operation in HOST's queue is issued in this mode: HOST's own operations always reach their `require`;
the pieces of WRITE are issued only while one runs (41_wire_symbols.md, 10_state.md R31). -/
def mayIssue (i : Instr) (m : Mode) : Bool :=
  decide (i.format = .hostop) || decide (m = .transmitting)

end Sys2Proof.Machine
end

