-- ==== Sys2Proof/Machine/HostOps.lean ====
section
/-! DEFINITION. The host operations CONSTRUCT and WRITE (40_host_operations.md). WRITE is given as R92 gives it: its
start here, and then one event a step by the sequencer (Machine/Sequencer.lean). The one big step of R91 is
Machine/BigStep.lean. -/

namespace Sys2Proof.Machine

/-- CONSTRUCT (R90): only in Absent (R102). `cal` is of `W_CAL` bits (`Instr.wf`). -/
def execConstruct (cal : Nat) (s : State) : Host.Outcome State Fault Refusal :=
  match s.mode with
  | .absent => .next ((s.consume 1).constructed cal (s.answerAt 0))
  | .idle => .refused .notAdmitted
  | .transmitting => .refused .notAdmitted

/-- WRITE (R92): only in Idle (R102). -/
def execWrite (colors : List Color) (s : State) : Host.Outcome State Fault Refusal :=
  match s.mode with
  | .idle => .next (s.startWrite colors.length colors)
  | .absent => .refused .notAdmitted
  | .transmitting => .refused .notAdmitted

end Sys2Proof.Machine
end

