-- ==== Sys2Proof/Machine/Primitives.lean ====
section
/-! DEFINITION. The interface primitives SET_HIGH, SET_LOW and DELAY (42_pin_and_delay_primitives.md). They have no
`require` and complete in every state. -/

namespace Sys2Proof.Machine

/-- SET_HIGH (R130). A fault answer is returned to the caller, which raises PinFault (R151). -/
def execSetHigh (s : State) : Host.Outcome State Fault Refusal :=
  .next (pinSet .high s).1

/-- SET_LOW (R131). -/
def execSetLow (s : State) : Host.Outcome State Fault Refusal :=
  .next (pinSet .low s).1

/-- DELAY (R132). -/
def execDelay (n : Nat) (s : State) : Host.Outcome State Fault Refusal :=
  .next (delayFor n s)

end Sys2Proof.Machine
end

