-- ==== Sys2Proof/Machine/Symbols.lean ====
section
/-! DEFINITION. The wire-level micro-operations SYM1, SYM0, BYTE, COLOR and GAP (41_wire_symbols.md), each run whole.
They read CAL and write no flag; a fault inside one ends the whole WRITE. The sequencer issues the same events one at a
time (Machine/Sequencer.lean). -/

namespace Sys2Proof.Machine

/-- The four events of the symbol of one bit (R110, R111), with calibration constant `c`. -/
def sendBit (c : Nat) (bit : Bool) (s : State) : State × Answer :=
  andThen (pinSet .high s) fun s1 =>
    andThen (pinSet .low (delayFor (hiCycles s.cfg c bit) s1)) fun s2 =>
      (delayFor (loCycles s.cfg c bit) s2, .ok)

/-- Symbols in order; nothing is emitted between them (R119, R120). -/
def sendBits (c : Nat) : List Bool → State → State × Answer
  | [], s => (s, .ok)
  | bit :: bits, s => andThen (sendBit c bit s) (sendBits c bits)

/-- BYTE(v): most significant bit first (R112). -/
def sendByte (c : Nat) (v : Byte) (s : State) : State × Answer :=
  sendBits c (byteBits v) s

/-- COLOR(r, g, b): BYTE(g), BYTE(r), BYTE(b) (R113), after SHREG is loaded with the wire word (10_state.md R28). -/
def sendColor (c : Nat) (col : Color) (s : State) : State × Answer :=
  andThen (sendByte c col.g { s with shreg := some (wireWord col) }) fun s1 =>
    andThen (sendByte c col.r s1) fun s2 => sendByte c col.b s2

/-- GAP (R114). -/
def sendGap (c : Nat) (s : State) : State × Answer :=
  if s.cfg.params.gapSetLow then
    andThen (pinSet .low s) fun s1 => (delayFor (gapCycles s.cfg c) s1, .ok)
  else (delayFor (gapCycles s.cfg c) s, .ok)

/-- SYM1 (R110). -/
def execSym1 (s : State) : Host.Outcome State Fault Refusal :=
  withCal s fun c => settle (sendBit c true s)

/-- SYM0 (R111). -/
def execSym0 (s : State) : Host.Outcome State Fault Refusal :=
  withCal s fun c => settle (sendBit c false s)

/-- BYTE (R112). -/
def execByte (v : Byte) (s : State) : Host.Outcome State Fault Refusal :=
  withCal s fun c => settle (sendByte c v s)

/-- COLOR (R113). -/
def execColor (r g b : Byte) (s : State) : Host.Outcome State Fault Refusal :=
  withCal s fun c => settle (sendColor c ⟨r, g, b⟩ s)

/-- GAP (R114). -/
def execGap (s : State) : Host.Outcome State Fault Refusal :=
  withCal s fun c => settle (sendGap c s)

end Sys2Proof.Machine
end

