-- ==== Sys2Proof/Machine/Dispatch.lean ====
section
/-! DEFINITION. exec: one arm per operation. -/

namespace Sys2Proof.Machine

def exec (i : Instr) (s : State) : Host.Outcome State Fault Refusal :=
  match i with
  | .construct cal => Sys2Proof.Machine.execConstruct cal s
  | .write colors => Sys2Proof.Machine.execWrite colors s
  | .color r g b => Sys2Proof.Machine.execColor r g b s
  | .byte v => Sys2Proof.Machine.execByte v s
  | .sym1 => Sys2Proof.Machine.execSym1 s
  | .sym0 => Sys2Proof.Machine.execSym0 s
  | .gap => Sys2Proof.Machine.execGap s
  | .setHigh => Sys2Proof.Machine.execSetHigh s
  | .setLow => Sys2Proof.Machine.execSetLow s
  | .delay n => Sys2Proof.Machine.execDelay n s

end Sys2Proof.Machine
end

