-- ==== Sys2Proof/Machine/Sequencer.lean ====
section
/-! DEFINITION. WRITE as a sequencer: the table of 40_host_operations.md R92, one event a step. -/

namespace Sys2Proof.Machine

/-- The transition a position issues and the position after an ok answer (R92); none at a DELAY. -/
def Pos.transition : Pos → Option (Level × Pos)
  | .bit i ch k .setHigh => some (.high, .bit i ch k .delayHigh)
  | .bit i ch k .setLow => some (.low, .bit i ch k .delayLow)
  | .gap .setLow => some (.low, .gap .delay)
  | .bit _ _ _ .delayHigh => none
  | .bit _ _ _ .delayLow => none
  | .gap .delay => none

/-- The position at which the colour `i` is read: `Bit(i, 0, 7, SH)` (20_memory.md R56). -/
def Pos.readsColor : Pos → Option Nat
  | .bit i .green 7 .setHigh => some i
  | _ => none

/-- The colour is read 'in the step at Bit(i, 0, 7, SH), before its PinSet(High)' (R92), into SHREG (R28). -/
def loadColor (p : Pos) (s : State) : Except Fault State :=
  match p.readsColor with
  | none => .ok s
  | some i =>
    match memRead i s with
    | some c => .ok { s with shreg := some (wireWord c) }
    | none => .error .colorIndexOutOfRange

/-- The wire bit at a position, from SHREG (R28). -/
def bitAt (ch : Channel) (k : Fin 8) (s : State) : Except Fault Bool :=
  match s.shreg with
  | some w => .ok (wireBit w ch k)
  | none => .error .shregHasNoValue

/-- The argument of the DELAY of each position (R92). CAL is read at each DELAY (R97). -/
def delayArgument (p : Pos) (s : State) : Except Fault Nat :=
  match s.cal with
  | none => .error .calHasNoValue
  | some c =>
    match p with
    | .bit _ ch k .delayHigh => (bitAt ch k s).map (hiCycles s.cfg c)
    | .bit _ ch k .delayLow => (bitAt ch k s).map (loCycles s.cfg c)
    | .bit _ _ _ .setHigh => .ok 0
    | .bit _ _ _ .setLow => .ok 0
    | .gap .setLow => .ok 0
    | .gap .delay => .ok (gapCycles s.cfg c)

/-- After a transition: on `ok` SEQ takes the position `q`, on `fault` the WRITE aborts (R92). -/
def afterTransition (q : Pos) (r : State × Answer) : State :=
  match r.2 with
  | .ok => { r.1 with seq := some q }
  | .fault => r.1.raisePinFault

/-- After the DELAY of a position has returned (R92). -/
def afterDelay (p : Pos) (s : State) : State :=
  match p with
  | .bit i ch k .delayHigh => { s with seq := some (.bit i ch k .setLow) }
  | .bit i ch k .delayLow => { s with seq := some (nextPos s.cfg s.len i ch k) }
  | .gap .delay => s.completeWrite
  | .bit _ _ _ .setHigh => s
  | .bit _ _ _ .setLow => s
  | .gap .setLow => s

/-- The one enabled step of ENC at a position (R92). -/
def sequencerStep (p : Pos) (s : State) : Host.Outcome State Fault Refusal :=
  match p.transition with
  | some (l, q) =>
    match loadColor p s with
    | .ok t => .next (afterTransition q (pinSet l t))
    | .error e => .fault e
  | none =>
    match delayArgument p s with
    | .ok n => .next (afterDelay p (delayFor n s))
    | .error e => .fault e

/-- The position at which ENC stands: SEQ has a value only while transmitting (10_state.md R24). -/
def State.position (s : State) : Option Pos :=
  match s.mode with
  | .transmitting => s.seq
  | .idle => none
  | .absent => none

end Sys2Proof.Machine
end

