-- ==== Sys2Proof/Machine/Step.lean ====
section
/-! DEFINITION. One step of the machine. The reset input comes first; then the sequencer while a WRITE runs; then HOST's
next operation word; with none, the block stays as it is. -/

namespace Sys2Proof.Machine

/-- ENC's or HOST's step when no reset is asserted or released: R92 while a WRITE runs, else the next word of HOST's
queue, else nothing ('While idle the line stays Low indefinitely', 70_reset_and_hazards.md R193). -/
def stepRunning (s : State) : Host.Outcome State Fault Refusal :=
  match s.position with
  | some p => sequencerStep p s
  | none =>
    match s.pending with
    | [] => .next s
    | w :: rest =>
      match decode s.cfg.params.wCal w with
      | .error e => .refused (.undecodable e)
      | .ok i => if mayIssue i s.mode then exec i { s with pending := rest } else .refused .hostCannotIssue

/-- One step. `rst` is sampled first, in any mode (R23, R183); its release performs CONSTRUCT with `cal_init` (R180). -/
def step (s : State) : Host.Outcome State Fault Refusal :=
  match s.rstNow, s.rst with
  | true, _ => .next s.popRst.assertReset
  | false, true => exec (.construct s.calInit) { s.popRst with rst := false }
  | false, false => stepRunning s.popRst

/-- The mode in which an operation is issued: CONSTRUCT in Absent, WRITE in Idle (R102), the pieces of WRITE while one
runs. -/
def issueMode : Except DecodeError Instr → Mode
  | .ok (.construct _) => .absent
  | .ok (.write _) => .idle
  | .ok _ => .transmitting
  | .error _ => .idle

/-- The machine about to run the operation of a word of the opcode table: the word at the head of HOST's queue, the
mode the one that operation is issued in, no reset coming, and no WRITE's position in its way (log 8). -/
def State.withFetchWord (s : State) (nbits w : Nat) : State :=
  { s with
    pending := tableWord s.cfg.params.wCal nbits w :: s.pending
    mode := issueMode (decode s.cfg.params.wCal (tableWord s.cfg.params.wCal nbits w))
    seq := none
    rst := false
    rstIn := [] }

end Sys2Proof.Machine
end

