-- ==== Sys2Proof/Machine/Ports.lean ====
section
/-! DEFINITION. The reference port binding (10_state.md R34, 42_pin_and_delay_primitives.md R137): the same state,
clocked, one call of `tick` a cycle of `clk`. A transition takes one cycle; a DELAY of `n` takes the `n` cycles in which
DCNT counts down; `rst` is sampled every cycle, `start` only when `busy = 0` and `rst = 0`. Choices the binding leaves
open: log 18. The colours come in on `col_rgb`, so `colors` is not used here. `W_LEN` is a parameter of the binding
(00_scope.md R15): the type of `len` and of `col_idx`. -/

namespace Sys2Proof.Machine

/-- The input ports in one cycle, with their widths (R34; `clk` is the call itself). -/
structure PortIn (wCal wLen : Nat) where
  rst : Bool
  calInit : BitVec wCal
  start : Bool
  len : BitVec wLen
  colRgb : Word24
  pinErr : Bool
  deriving DecidableEq, Repr

/-- The output ports, with their widths (R34). `colIdx` is `none` when no colour is being fetched, `dout` when the level is
Unknown. -/
structure PortOut (wLen : Nat) where
  colIdx : Option (BitVec wLen)
  dout : Option Bool
  busy : Bool
  done : Bool
  fault : Bool
  deriving DecidableEq, Repr

/-- `pin_err`: the pin driver's answer to the transition issued in this cycle (R34). -/
def PortIn.answer {wCal wLen : Nat} (p : PortIn wCal wLen) : Answer :=
  if p.pinErr then .fault else .ok

/-- Index of the colour being fetched: at the position that reads one (R34, 20_memory.md R56). -/
def State.colIdx (s : State) : Option Nat :=
  match s.position with
  | some p => p.readsColor
  | none => none

/-- The line as a port level: 1 is High, 0 is Low (R34). -/
def Line.toPort : Line → Option Bool
  | .low => some false
  | .high => some true
  | .unknown => none

/-- SHREG takes the colour on `col_rgb` at the position that reads one (10_state.md R28, 30_encoding.md R71). -/
def loadPort (p : Pos) (rgb : Word24) (s : State) : State :=
  match p.readsColor with
  | some _ => { s with shreg := some (rgbToWire rgb) }
  | none => s

/-- The cycle in which a DELAY starts: DCNT is loaded with its argument; `Delay(0)` returns at once (R137, R140). -/
def enterDelay (p : Pos) (s : State) : Host.Outcome State Fault Refusal :=
  match delayArgument p s with
  | .error e => .fault e
  | .ok n =>
    if n = 0 then .next (afterDelay p (delayFor n s))
    else .next { s with dcnt := some n }

/-- A cycle inside a DELAY: DCNT counts one down, and the DELAY returns in the cycle it reaches 0 (R137). -/
def countDelay (p : Pos) (d : Nat) (s : State) : Host.Outcome State Fault Refusal :=
  if d ≤ 1 then
    match delayArgument p s with
    | .error e => .fault e
    | .ok n => .next (afterDelay p (delayFor n s))
  else .next { s with dcnt := some (d - 1) }

/-- A cycle of a running WRITE. A transition's cycle also loads DCNT for the DELAY after it; a DELAY that no transition
precedes takes a cycle to load. -/
def tickRunning {wCal wLen : Nat} (p : Pos) (io : PortIn wCal wLen) (s : State) : Host.Outcome State Fault Refusal :=
  match p.transition with
  | some (l, q) =>
    match io.answer with
    | .ok => enterDelay q { (loadPort p io.colRgb s).answered l .ok with seq := some q }
    | .fault => .next ((loadPort p io.colRgb s).answered l .fault).raisePinFault
  | none =>
    match s.dcnt with
    | some d => countDelay p d s
    | none => enterDelay p s

/-- One cycle of `clk`. `rst` wins over everything in its cycle (60_exceptions.md R157); the cycle it falls performs
CONSTRUCT with `cal_init` (R34); `start` is ignored while busy and while no encoder exists (40_host_operations.md
R102). The configuration's `W_CAL` is the ports'. -/
def tick {wCal wLen : Nat} (io : PortIn wCal wLen) (s : State) : Host.Outcome State Fault Refusal :=
  if io.rst then .next s.assertReset
  else if s.rst then .next ({ s with rst := false, calInit := io.calInit.toNat }.constructed io.calInit.toNat io.answer)
  else
    match s.mode with
    | .absent => .next s
    | .idle => if io.start then .next (s.startWrite io.len.toNat []) else .next s
    | .transmitting =>
      match s.seq with
      | some p => tickRunning p io s
      | none => .next s

/-- The output ports in the cycle that took `s` to `t`: `done` pulses when a WRITE ends, with either result (R34). A
WRITE that a reset cuts has no result (70_reset_and_hazards.md R183). DESIGN CHOICE, unsafe (log 18): R34 and
20_memory.md R63 give `col_idx` no latency; here the outputs show the state after the cycle, so `col_idx = i` stands one
cycle before the cycle that samples colour `i` on `col_rgb`. -/
def portOut (wLen : Nat) (s t : State) : PortOut wLen where
  colIdx := t.colIdx.map (BitVec.ofNat wLen)
  dout := t.line.toPort
  busy := t.busy
  done := s.busy && decide (t.mode = .idle)
  fault := t.fault

/-- `n` cycles with the same inputs. -/
def tickMany {wCal wLen : Nat} (io : PortIn wCal wLen) : Nat → State → Host.Outcome State Fault Refusal
  | 0, s => .next s
  | n + 1, s =>
    match tick io s with
    | .next t => tickMany io n t
    | .fault f => .fault f
    | .refused r => .refused r

end Sys2Proof.Machine
end

