-- ==== Sys2Proof/Machine/Frame.lean ====
section
/-! DEFINITION. What a fault-free WRITE puts on the line, written from the expansions of 30_encoding.md R72 and R83 as
lists of events, apart from the machine: the yardstick the machine's trace is held to. -/

namespace Sys2Proof.Machine

/-- A colour's 24 bits in wire order (20_memory.md R53, R54). -/
def wireBits (c : Color) : List Bool :=
  byteBits c.g ++ byteBits c.r ++ byteBits c.b

/-- The bits of a frame: the colours in index order, nothing between them (R72). -/
def frameBits (colors : List Color) : List Bool :=
  colors.flatMap wireBits

/-- `SYM(bit)`: `H D(hi) L D(lo)` (R83). -/
def symbolEvents (cfg : Config) (c : Nat) (bit : Bool) : List Event :=
  [.set .high .ok, .delay (hiCycles cfg c bit), .set .low .ok, .delay (loCycles cfg c bit)]

/-- `GAP` (R83). -/
def gapEvents (cfg : Config) (c : Nat) : List Event :=
  if cfg.params.gapSetLow then [.set .low .ok, .delay (gapCycles cfg c)] else [.delay (gapCycles cfg c)]

/-- `WRITE(c0, …, cn)`: `COLOR(c0) … COLOR(cn) GAP` (R83). -/
def frameEvents (cfg : Config) (c : Nat) (colors : List Color) : List Event :=
  (frameBits colors).flatMap (symbolEvents cfg c) ++ gapEvents cfg c

/-- `g` of 40_host_operations.md R95: 1 if `GAP_SET_LOW` else 0. -/
def gapTransitions (cfg : Config) : Nat :=
  if cfg.params.gapSetLow then 1 else 0

/-- Transitions a WRITE of `len` colours issues: `48 × len + g` (R95). -/
def transitionCount (cfg : Config) (len : Nat) : Nat :=
  48 * len + gapTransitions cfg

/-- Events of a WRITE of `len` colours that returns Ok: `96 × len + 1 + g` (R95), as many as positions (R117). -/
def eventCount (cfg : Config) (len : Nat) : Nat :=
  96 * len + 1 + gapTransitions cfg

/-- Whether an event is a transition, answered either way. -/
def Event.isTransition : Event → Bool
  | .set _ _ => true
  | .delay _ => false

/-- Whether an event is a transition answered fault: `H!` or `L!`. -/
def Event.isFaulted : Event → Bool
  | .set _ .fault => true
  | .set _ .ok => false
  | .delay _ => false

/-- The bit numbers of a channel in transmission order, 7 down to 0 (10_state.md R24). -/
def bitNumbers : List (Fin 8) :=
  [7, 6, 5, 4, 3, 2, 1, 0]

/-- The channel slots in transmission order (20_memory.md R53). -/
def channels : List Channel :=
  [.green, .red, .blue]

/-- The stages of a symbol in order (41_wire_symbols.md R117). -/
def bitStages : List BitStage :=
  [.setHigh, .delayHigh, .setLow, .delayLow]

/-- The positions of colour `i`, in order (R117). -/
def colorPositions (i : Nat) : List Pos :=
  channels.flatMap fun ch => bitNumbers.flatMap fun k => bitStages.map fun stg => .bit i ch k stg

/-- 'The positions visited by a WRITE that returns Ok', in order (R117). -/
def positions (cfg : Config) (len : Nat) : List Pos :=
  (List.range len).flatMap colorPositions ++
    (if cfg.params.gapSetLow then [.gap .setLow, .gap .delay] else [.gap .delay])

/-- Nominal cycles of an event: a DELAY's argument; a transition takes none (42_pin_and_delay_primitives.md R134). -/
def Event.cycles : Event → Nat
  | .set _ _ => 0
  | .delay n => n

/-- Nominal cycles of a trace: the sum of its DELAY arguments (40_host_operations.md R96). -/
def nominalCycles (t : List Event) : Nat :=
  (t.map Event.cycles).sum

/-- The line after a trace that began at level `l` (10_state.md R22). -/
def lineAfter (l : Line) : List Event → Line
  | [] => l
  | .set .high .ok :: t => lineAfter .high t
  | .set .low .ok :: t => lineAfter .low t
  | .set _ .fault :: t => lineAfter .unknown t
  | .delay _ :: t => lineAfter l t

/-- The nominal waveform: one segment `(level, n)` for each `D(n)`, its level the one in force when the DELAY was
issued (00_scope.md R18). -/
def waveform (l : Line) : List Event → List (Line × Nat)
  | [] => []
  | .set .high .ok :: t => waveform .high t
  | .set .low .ok :: t => waveform .low t
  | .set _ .fault :: t => waveform .unknown t
  | .delay n :: t => (l, n) :: waveform l t

/-- Nominal cycles of High in a waveform. -/
def highCycles (w : List (Line × Nat)) : Nat :=
  ((w.filter fun p => decide (p.1 = .high)).map Prod.snd).sum

end Sys2Proof.Machine
end

