-- ==== Sys2Proof/Machine/Timing.lean ====
section
/-! DEFINITION. The wall-clock reading of a trace (70_reset_and_hazards.md R194 to R196): functions of a trace, of the
platform and of the stretches ENV adds. No rule of the step reads any of them. -/

namespace Sys2Proof.Machine

/-- `F_CLK` in hertz and the overheads in cycles (00_scope.md R14): OPEN, so arguments of every function here. -/
structure Platform where
  fClk : Nat
  ovhSet : Nat
  ovhDly : Nat
  deriving DecidableEq, Repr

/-- `T_BIT_NOM` in nanoseconds (R11). -/
def tBitNomNs : Nat := 1250

/-- `T_RESET_MIN` in nanoseconds (R11). -/
def tResetMinNs : Nat := 50000

/-- `TOL` in nanoseconds (R11). -/
def tolNs : Nat := 150

/-- `FRAC1_MIN` in per cent (R11). -/
def frac1MinPct : Nat := 60

/-- `FRAC0_MAX` in per cent (R11). -/
def frac0MaxPct : Nat := 40

/-- Nanoseconds in a second. -/
def nsPerS : Nat := 1000000000

/-- Cycles a DELAY of `n` takes: `n + OVH_DLY + stretch` (42_pin_and_delay_primitives.md R136). -/
def delayCycles (pl : Platform) (n stretch : Nat) : Nat :=
  n + pl.ovhDly + stretch

/-- NO_DISTURB: every stretch of the WRITE is 0 (R138). -/
def noDisturb (stretches : List Nat) : Bool :=
  stretches.all fun x => decide (x = 0)

/-- A phase of the wire: its level, its length in cycles, and whether a transition closed it. -/
structure Phase where
  level : Line
  cycles : Nat
  closed : Bool
  deriving DecidableEq, Repr

/-- The phases of a trace that began at level `l`, `age` cycles into its phase. A phase held by `D(n)` and closed by the
next transition lasts `n + OVH_DLY + OVH_SET + stretch` (R194). `stretches` are ENV's draws, one for each DELAY, 0 past
the end. The last phase has no closing transition. -/
def phases (pl : Platform) (l : Line) (age : Nat) : List Event → List Nat → List Phase
  | [], _ => [⟨l, age, false⟩]
  | .set lv a :: t, st => ⟨l, age + pl.ovhSet, true⟩ :: phases pl (lineAfter l [.set lv a]) 0 t st
  | .delay n :: t, st => phases pl l (age + delayCycles pl n (st.headD 0)) t st.tail

/-- Wall-clock cycles of a whole trace. -/
def wallCycles (pl : Platform) : List Event → List Nat → Nat
  | [], _ => 0
  | .set _ _ :: t, st => pl.ovhSet + wallCycles pl t st
  | .delay n :: t, st => delayCycles pl n (st.headD 0) + wallCycles pl t st.tail

/-- `OVH = OVH_DLY + OVH_SET` (R194). -/
def Platform.ovh (pl : Platform) : Nat :=
  pl.ovhDly + pl.ovhSet

/-- Wall-clock high phase of a bit under NO_DISTURB (R194). -/
def wallHigh (pl : Platform) (cfg : Config) (c : Nat) (bit : Bool) : Nat :=
  hiCycles cfg c bit + pl.ovh

/-- Wall-clock low phase of a bit under NO_DISTURB (R194). -/
def wallLow (pl : Platform) (cfg : Config) (c : Nat) (bit : Bool) : Nat :=
  loCycles cfg c bit + pl.ovh

/-- Wall-clock bit period in cycles under NO_DISTURB (R194). -/
def wallBitPeriod (pl : Platform) (cfg : Config) (c : Nat) (bit : Bool) : Nat :=
  wallHigh pl cfg c bit + wallLow pl cfg c bit

/-- `cycles / F_CLK` lies within `tol` nanoseconds of `target` nanoseconds. -/
def withinNs (pl : Platform) (cycles target tol : Nat) : Bool :=
  decide (cycles * nsPerS ≤ (target + tol) * pl.fClk) && decide (target * pl.fClk ≤ cycles * nsPerS + tol * pl.fClk)

/-- P1 (R195): `|bit period − T_BIT_NOM| ≤ TOL`. -/
def timingP1 (pl : Platform) (cfg : Config) (c : Nat) (bit : Bool) : Bool :=
  withinNs pl (wallBitPeriod pl cfg c bit) tBitNomNs tolNs

/-- P2 (R195): the high-phase fraction is at least `FRAC1_MIN` for a 1 and at most `FRAC0_MAX` for a 0. -/
def timingP2 (pl : Platform) (cfg : Config) (c : Nat) (bit : Bool) : Bool :=
  if bit then decide (frac1MinPct * wallBitPeriod pl cfg c true ≤ 100 * wallHigh pl cfg c true)
  else decide (100 * wallHigh pl cfg c false ≤ frac0MaxPct * wallBitPeriod pl cfg c false)

/-- P3 (R195): `RESET_UNITS × CAL / F_CLK > T_RESET_MIN`. -/
def timingP3 (pl : Platform) (cfg : Config) (c : Nat) : Bool :=
  decide (tResetMinNs * pl.fClk < gapCycles cfg c * nsPerS)

/-- P4 (R195): the wall-clock duration of a trace lies within `tol` nanoseconds of its nominal cycles. The source gives
the tolerance no number (93_implementation_defined.md U15). -/
def timingP4 (pl : Platform) (t : List Event) (stretches : List Nat) (tol : Nat) : Bool :=
  decide (wallCycles pl t stretches * nsPerS ≤ nominalCycles t * nsPerS + tol * pl.fClk) &&
    decide (nominalCycles t * nsPerS ≤ wallCycles pl t stretches * nsPerS + tol * pl.fClk)

/-- P5 (R195): a phase lies within `TOL` of a fixed target; the targets are not in the source (91_not_in_source.md N5),
so the target is an argument. -/
def timingP5 (pl : Platform) (ph : Phase) (targetNs : Nat) : Bool :=
  withinNs pl ph.cycles targetNs tolNs

/-- The quantities of the nominal timing table (R196). -/
inductive Quantity where
  | unit
  | shortPhase
  | longPhase
  | bitPeriod
  | byte
  | color
  | resetGap
  | write (len : Nat)
  deriving DecidableEq, Repr

/-- Column 'units' of R196, in calibration units. -/
def Quantity.units (cfg : Config) : Quantity → Nat
  | .unit => 1
  | .shortPhase => cfg.params.sMult
  | .longPhase => cfg.params.lMult
  | .bitPeriod => cfg.params.lMult + cfg.params.sMult
  | .byte => 8 * (cfg.params.lMult + cfg.params.sMult)
  | .color => 24 * (cfg.params.lMult + cfg.params.sMult)
  | .resetGap => cfg.params.resetUnits
  | .write len => 24 * len * (cfg.params.lMult + cfg.params.sMult) + cfg.params.resetUnits

/-- Column 'nominal cycles' of R196. -/
def Quantity.cycles (cfg : Config) (c : Nat) (q : Quantity) : Nat :=
  q.units cfg * c

/-- Column 'nominal time' of R196 in nanoseconds, exact: the bit period is `T_BIT_NOM`, so a calibration unit is
`T_BIT_NOM / (L_MULT + S_MULT)`, with the values taken `T_BIT_NOM / 3`. The table rounds to 0.1 ns. -/
def Quantity.timeNs (cfg : Config) (q : Quantity) : ℚ :=
  q.units cfg * tBitNomNs / (cfg.params.lMult + cfg.params.sMult : Nat)

/-- The nominal calibration `CAL ≈ (F_CLK × T_BIT_NOM − 2 × OVH) / (L_MULT + S_MULT)` (R196). DESIGN CHOICE (log 19): the
rule rounds no way; here the quotient is rounded down, and is 0 where the overheads exceed the bit period. -/
def nominalCal (pl : Platform) (cfg : Config) : Nat :=
  (pl.fClk * tBitNomNs - 2 * pl.ovh * nsPerS) / ((cfg.params.lMult + cfg.params.sMult) * nsPerS)

/-- LOW_AGE in cycles (10_state.md R32): how long the line has been continuously Low after a trace that began at level
`l` with Low age `age`. A SET_LOW on a Low line keeps the age; it takes `OVH_SET` cycles. DESIGN CHOICE, safe (log 21): R32 gives LOW_AGE no value
on a line whose level is Unknown, which may be High (R22); here it is 0 there, so that no frame is called fresh. -/
def lowAge (pl : Platform) (l : Line) (age : Nat) : List Event → List Nat → Nat
  | [], _ =>
    match l with
    | .low => age
    | .high => 0
    | .unknown => 0
  | .set lv a :: t, st =>
    match l, lineAfter l [.set lv a] with
    | .low, .low => lowAge pl .low (age + pl.ovhSet) t st
    | _, l' => lowAge pl l' 0 t st
  | .delay n :: t, st => lowAge pl l (age + delayCycles pl n (st.headD 0)) t st.tail

/-- A frame is fresh if `LOW_AGE ≥ T_RESET_MIN` when its first SET_HIGH takes effect (70_reset_and_hazards.md R188). -/
def fresh (pl : Platform) (lowAgeCycles : Nat) : Bool :=
  decide (tResetMinNs * pl.fClk ≤ lowAgeCycles * nsPerS)

end Sys2Proof.Machine
end

