-- ==== Sys2Proof/Machine/BigStep.lean ====
section
/-! DEFINITION. WRITE as one big step (40_host_operations.md R91). R103: 'A model should define one and prove the
other'; the step of this model is the sequencer, and this is what it is held to. -/

namespace Sys2Proof.Machine

/-- The colours in sequence order. -/
def sendColors (c : Nat) : List Color → State → State × Answer
  | [], s => (s, .ok)
  | col :: cols, s => andThen (sendColor c col s) (sendColors c cols)

/-- The body of R91: the colours, then one gap. -/
def sendFrame (c : Nat) (colors : List Color) (s : State) : State × Answer :=
  andThen (sendColors c colors s) (sendGap c)

/-- The end of R91: `return Ok` after the last event, or the abort. -/
def finishWrite (r : State × Answer) : State :=
  match r.2 with
  | .ok => r.1.completeWrite
  | .fault => r.1.raisePinFault

/-- `WRITE(colors)` of R91 in Idle, with `c` the value CAL has at the start. -/
def writeWhole (c : Nat) (colors : List Color) (s : State) : State :=
  finishWrite (sendFrame c colors (s.startWrite colors.length colors))

end Sys2Proof.Machine
end

