-- ==== Sys2Proof/Safety.lean ====
section
/-! DEFINITION. The premises and the invariant that claims are stated in: PIN's answers, no reset, and what holds of
every state a run reaches. -/

namespace Sys2Proof.Machine

/-- `n` steps of the machine of Host/Core.lean, stopping at the first fault or refusal. -/
def runSteps (n : Nat) (s : State) : Host.Outcome State Fault Refusal :=
  Sys2Proof.core.run n s

/-- 'Every transition of this WRITE is answered ok' (42_pin_and_delay_primitives.md R133): the next `n` are. -/
def AllOk (n : Nat) (s : State) : Prop :=
  ∀ k, k < n → s.answerAt k = .ok

/-- The `t`-th transition from here, counted from 1, is the first the pin answers fault (60_exceptions.md R152). -/
def FirstFaultAt (t : Nat) (s : State) : Prop :=
  1 ≤ t ∧ AllOk (t - 1) s ∧ s.answerAt (t - 1) = .fault

/-- No reset is asserted, nor sampled in the next `n` steps. -/
def NoReset (n : Nat) (s : State) : Prop :=
  s.rst = false ∧ ∀ b ∈ s.rstIn.take n, b = false

/-- 'No fault recorded since construction' (10_state.md R35): no event of the trace is a faulted transition. -/
def State.noFaultRecorded (s : State) : Bool :=
  s.trace.all fun e => !e.isFaulted

/-- The level at a position of a WRITE without a fault: 'High exactly at the positions Bit(·,·,·,DH) and
Bit(·,·,·,SL), and Low at all others' (R35). -/
def Pos.level : Pos → Line
  | .bit _ _ _ .setHigh => .low
  | .bit _ _ _ .delayHigh => .high
  | .bit _ _ _ .setLow => .high
  | .bit _ _ _ .delayLow => .low
  | .gap _ => .low

/-- What holds of every state a run of `step` reaches. -/
structure State.Inv (s : State) : Prop where
  /-- SEQ has a value exactly while transmitting (R24). -/
  seq_transmitting : s.seq.isSome = true ↔ s.mode = .transmitting
  /-- CAL has a value exactly once constructed (R21, R33). -/
  cal_constructed : s.cal.isSome = true ↔ s.mode ≠ .absent
  /-- CAL fits its `W_CAL` bits (R21). -/
  cal_width : ∀ c, s.cal = some c → c < 2 ^ s.cfg.params.wCal
  /-- The port `cal_init` has `W_CAL` bits (R34). -/
  cal_init_width : s.calInit < 2 ^ s.cfg.params.wCal
  /-- The index of a position lies in the sequence (R24). -/
  index_in_range : ∀ i ch k stg, s.seq = some (.bit i ch k stg) → i < s.colors.length
  /-- `GS` is a stage of the gap 'only when `GAP_SET_LOW`' (R24). -/
  gap_opens : s.seq = some (.gap .setLow) → s.cfg.params.gapSetLow = true
  /-- `len` is the length of the sequence. -/
  len_colors : s.len = s.colors.length
  /-- SHREG is the wire word of the colour being transmitted, once it is loaded (R28). -/
  shreg_colour : ∀ i ch k stg col, s.seq = some (.bit i ch k stg) → s.colors[i]? = some col →
    (Pos.bit i ch k stg).readsColor = none → s.shreg = some (wireWord col)
  /-- Outside a WRITE there are no operands and SHREG holds no value (R28, R30). -/
  outside_write : s.mode ≠ .transmitting → s.shreg = none ∧ s.colors = []
  /-- DCNT holds no value between steps (R27). -/
  dcnt_empty : s.dcnt = none
  /-- FAULT is 0 while a WRITE runs (R25). -/
  fault_clear : s.mode = .transmitting → s.fault = false
  /-- LINE is Unknown before construction (R33). -/
  absent_unknown : s.mode = .absent → s.line = .unknown
  /-- An asserted reset keeps the block in Absent (R23). -/
  rst_absent : s.rst = true → s.mode = .absent
  /-- R35, Idle. -/
  idle_low : s.noFaultRecorded = true → s.mode = .idle → s.line = .low
  /-- R35, Transmitting. -/
  transmitting_level : ∀ p, s.noFaultRecorded = true → s.seq = some p → s.line = p.level
  /-- No WRITE leaves the line High: it is Low after Ok and Unknown after PinFault (R35, 60_exceptions.md R153). -/
  idle_not_high : s.mode = .idle → s.line ≠ .high
  /-- Past faults or not, the level is the position's, but for an Unknown level at the position a WRITE starts at: 'The
  next transition answered ok makes it known again' (R22). -/
  level_or_unknown : ∀ p, s.seq = some p → s.line = p.level ∨ (s.line = .unknown ∧ p = startPos s.cfg s.len)

/-- The widths of the reference port binding (10_state.md R24, R27, R34), of every state it reaches with `W_LEN = wLen`. -/
structure State.PortInv (wLen : Nat) (s : State) : Prop where
  /-- The index of a position is below the sampled `len` (R24). -/
  index_below_len : ∀ i ch k stg, s.seq = some (.bit i ch k stg) → i < s.len
  /-- `len` has `W_LEN` bits (R34), and so has the index below it (R24). -/
  len_width : s.len < 2 ^ wLen
  /-- CAL has `W_CAL` bits (R21). -/
  cal_width : ∀ c, s.cal = some c → c < 2 ^ s.cfg.params.wCal
  /-- DCNT has `W_DLY` bits (R27). -/
  dcnt_width : ∀ d, s.dcnt = some d → d < 2 ^ s.cfg.params.wDly

end Sys2Proof.Machine
end

