-- ==== Sys2Proof/Certificates/Slice0/Obligations.lean ====
section
/-! DEFINITION. The statements for the provers. Each docstring names the rule of spec/ it formalises. -/

open Sys2Proof Sys2Proof.Machine

/-! ### Operation words -/

/-- Words written out from the encodings of 30_encoding.md R70, R73, R81, R82 and program P1 of 95_test_vectors.md
decode to the operations they stand for, at the value taken `W_CAL = 32`. The layout in bytes is the model's choice
(log 6). -/
def Obligations.SpecWordsDecode : Prop :=
  decode 32 ⟨.hostop, [0x00, 0x0A, 0x00, 0x00, 0x00]⟩ = .ok (.construct 10) ∧
  decode 32 ⟨.hostop, [0x01, 0x01, 0x80, 0x00, 0xFF, 0x00]⟩ = .ok (.write [⟨0xFF, 0x00, 0x80⟩]) ∧
  decode 32 ⟨.colorRgb, [0x56, 0x34, 0x12]⟩ = .ok (.color 0x12 0x34 0x56) ∧
  decode 32 ⟨.byte8, [0xA5]⟩ = .ok (.byte 0xA5) ∧
  decode 32 ⟨.symbol, [0x01]⟩ = .ok .sym1 ∧ decode 32 ⟨.symbol, [0x00]⟩ = .ok .sym0 ∧
  decode 32 ⟨.gap, []⟩ = .ok .gap ∧
  decode 32 ⟨.pinop, [0x01]⟩ = .ok .setHigh ∧ decode 32 ⟨.pinop, [0x00]⟩ = .ok .setLow ∧
  decode 32 ⟨.delayop, [0x14, 0x00, 0x00, 0x00, 0x00, 0x00]⟩ = .ok (.delay 20)

/-- Decoding the word of any well-formed operation gives it back, with every operand at every value and for every
`W_CAL`. The layout in bytes is the model's choice (log 6). -/
def Obligations.DecodeOfEncodeIsTheOperation : Prop :=
  ∀ (wCal : Nat) (i : Instr), i.wf wCal = true → decode wCal (encode wCal i) = .ok i

/-- A word that decodes is the one word of its operation, and the operation is well formed: no two words share a
meaning and no bit is ignored, for every `W_CAL`. The layout in bytes is the model's choice (log 6). -/
def Obligations.EveryDecodableWordIsItsEncoding : Prop :=
  ∀ (wCal : Nat) (w : OpWord) (i : Instr), decode wCal w = .ok i → encode wCal i = w ∧ i.wf wCal = true

/-! ### One step -/

/-- A step runs the operation HOST's next word decodes to: when no WRITE runs and no reset comes, step is exec of that
operation on the state without the word. A piece of WRITE that HOST asks for outside a WRITE is refused by name, and
with no word the block stays as it is (R169, R193). The queue and the refusal are the model's (log 5, 8). -/
def Obligations.StepRunsTheDecodedOperation : Prop :=
  ∀ s : State, NoReset 1 s → s.position = none →
    (∀ w rest i, s.pending = w :: rest → decode s.cfg.params.wCal w = .ok i → i.wf s.cfg.params.wCal = true →
      (i.format = .hostop ∨ s.mode = .transmitting →
        step s = exec i { s with pending := rest, rstIn := s.rstIn.tail }) ∧
      (i.format ≠ .hostop → s.mode ≠ .transmitting → step s = .refused .hostCannotIssue)) ∧
    (s.pending = [] → step s = .next { s with rstIn := s.rstIn.tail })

/-- R92 in terms of the primitives: each step of a running WRITE is exec of SET_HIGH, SET_LOW or DELAY, and then the
move of SEQ. -/
def Obligations.SequencerIssuesThePrimitives : Prop :=
  ∀ (s : State) (p : Pos), NoReset 1 s → s.mode = .transmitting → s.seq = some p →
    (∀ l q u, p.transition = some (l, q) → loadColor p { s with rstIn := s.rstIn.tail } = .ok u →
      s.answerAt 0 = .ok →
      ∃ v, exec (match l with | .high => .setHigh | .low => .setLow) u = .next v ∧
        step s = .next { v with seq := some q }) ∧
    (∀ n, p.transition = none → delayArgument p s = .ok n →
      ∃ v, exec (.delay n) { s with rstIn := s.rstIn.tail } = .next v ∧ step s = .next (afterDelay p v))

/-! ### The primitives -/

/-- R130: SET_HIGH answered ok makes LINE High and emits H; answered fault it leaves LINE Unknown and emits H!; the answer
is returned. Nothing else changes but PIN's answer being used. -/
def Obligations.SetHighDrivesTheLine : Prop :=
  ∀ s : State,
    (s.answerAt 0 = .ok →
      exec .setHigh s = .next { s.consume 1 with line := .high, trace := s.trace ++ [.set .high .ok] }) ∧
    (s.answerAt 0 = .fault →
      exec .setHigh s = .next { s.consume 1 with line := .unknown, trace := s.trace ++ [.set .high .fault] }) ∧
    exec .setHigh s = .next (pinSet .high s).1 ∧ (pinSet .high s).2 = s.answerAt 0

/-- R131: the same of SET_LOW. -/
def Obligations.SetLowDrivesTheLine : Prop :=
  ∀ s : State,
    (s.answerAt 0 = .ok →
      exec .setLow s = .next { s.consume 1 with line := .low, trace := s.trace ++ [.set .low .ok] }) ∧
    (s.answerAt 0 = .fault →
      exec .setLow s = .next { s.consume 1 with line := .unknown, trace := s.trace ++ [.set .low .fault] }) ∧
    exec .setLow s = .next (pinSet .low s).1 ∧ (pinSet .low s).2 = s.answerAt 0

/-- R132: a DELAY of any argument is one step that appends `D(n)` and changes no other state; DCNT holds no value after
it. -/
def Obligations.DelayEmitsItsArgument : Prop :=
  ∀ (n : Nat) (s : State), exec (.delay n) s = .next { s with trace := s.trace ++ [.delay n], dcnt := none }

/-- Frame of the primitives (R130, R131, R132): whatever PIN answers, they change the trace, LINE, DCNT and PIN's
answers alone; a DELAY leaves LINE too. No colour of the sequence changes. -/
def Obligations.PrimitivesLeaveTheRestUnchanged : Prop :=
  ∀ (i : Instr) (s t : State), i.format = .pinop ∨ i.format = .delayop → exec i s = .next t →
    t.cal = s.cal ∧ t.mode = s.mode ∧ t.seq = s.seq ∧ t.fault = s.fault ∧ t.shreg = s.shreg ∧ t.rst = s.rst ∧
    t.len = s.len ∧ (∀ j, memRead j t = memRead j s) ∧ t.results = s.results ∧ t.pending = s.pending ∧
    t.rstIn = s.rstIn ∧ t.calInit = s.calInit ∧ t.cfg = s.cfg ∧
    (i.format = .delayop → t.line = s.line ∧ t.answers = s.answers ∧ t.draws = s.draws) ∧
    (i.format = .pinop → t.dcnt = s.dcnt)

/-! ### The micro-operations -/

/-- R110: SYM1 issues `H D(L_MULT × CAL) L D(S_MULT × CAL)`, and PinFault aborts it at either transition. -/
def Obligations.Sym1SendsLongHighShortLow : Prop :=
  ∀ (s : State) (c : Nat), s.cal = some c →
    (AllOk 2 s → exec .sym1 s = .next
      { s.consume 2 with
        line := .low, dcnt := none
        trace := s.trace ++ [.set .high .ok, .delay (s.cfg.params.lMult * c),
          .set .low .ok, .delay (s.cfg.params.sMult * c)] }) ∧
    (FirstFaultAt 1 s → exec .sym1 s = .next
      ({ s.consume 1 with trace := s.trace ++ [.set .high .fault] } : State).raisePinFault) ∧
    (FirstFaultAt 2 s → exec .sym1 s = .next
      ({ s.consume 2 with
        trace := s.trace ++ [.set .high .ok, .delay (s.cfg.params.lMult * c), .set .low .fault] } :
        State).raisePinFault)

/-- R111: SYM0 issues `H D(S_MULT × CAL) L D(L_MULT × CAL)`, and PinFault aborts it at either transition. -/
def Obligations.Sym0SendsShortHighLongLow : Prop :=
  ∀ (s : State) (c : Nat), s.cal = some c →
    (AllOk 2 s → exec .sym0 s = .next
      { s.consume 2 with
        line := .low, dcnt := none
        trace := s.trace ++ [.set .high .ok, .delay (s.cfg.params.sMult * c),
          .set .low .ok, .delay (s.cfg.params.lMult * c)] }) ∧
    (FirstFaultAt 1 s → exec .sym0 s = .next
      ({ s.consume 1 with trace := s.trace ++ [.set .high .fault] } : State).raisePinFault) ∧
    (FirstFaultAt 2 s → exec .sym0 s = .next
      ({ s.consume 2 with
        trace := s.trace ++ [.set .high .ok, .delay (s.cfg.params.sMult * c), .set .low .fault] } :
        State).raisePinFault)

/-- R112: BYTE(v) is always eight symbols, one for each bit, `v[7]` first, 32 events and `8 × (L_MULT + S_MULT) × CAL`
nominal cycles. -/
def Obligations.ByteSendsEightSymbolsMsbFirst : Prop :=
  ∀ (s : State) (c : Nat) (v : Byte), s.cal = some c → AllOk 16 s →
    ∃ es : List Event,
      exec (.byte v) s = .next { s.consume 16 with line := .low, dcnt := none, trace := s.trace ++ es } ∧
      es = (List.range 8).flatMap (fun j => symbolEvents s.cfg c (v.getLsbD (7 - j))) ∧
      es.length = 32 ∧ nominalCycles es = 8 * (s.cfg.params.lMult + s.cfg.params.sMult) * c

/-- R113: COLOR(r, g, b) is BYTE(g), BYTE(r), BYTE(b), nothing between them: always 96 events and
`24 × (L_MULT + S_MULT) × CAL` nominal cycles. SHREG takes the wire word (R28). -/
def Obligations.ColorSendsGreenRedBlue : Prop :=
  ∀ (s : State) (c : Nat) (r g b : Byte), s.cal = some c → AllOk 48 s →
    ∃ es : List Event,
      exec (.color r g b) s = .next
        { s.consume 48 with
          line := .low, dcnt := none, shreg := some (wireWord ⟨r, g, b⟩), trace := s.trace ++ es } ∧
      es = ([g, r, b] : List Byte).flatMap (fun v =>
        (List.range 8).flatMap fun j => symbolEvents s.cfg c (v.getLsbD (7 - j))) ∧
      es.length = 96 ∧ nominalCycles es = 24 * (s.cfg.params.lMult + s.cfg.params.sMult) * c

/-- R114: GAP is `L D(RESET_UNITS × CAL)` when `GAP_SET_LOW`, else `D(RESET_UNITS × CAL)`; PinFault aborts it at its one
transition. -/
def Obligations.GapHoldsTheLineLow : Prop :=
  ∀ (s : State) (c : Nat), s.cal = some c →
    (s.cfg.params.gapSetLow = true → s.answerAt 0 = .ok → exec .gap s = .next
      { s.consume 1 with
        line := .low, dcnt := none
        trace := s.trace ++ [.set .low .ok, .delay (s.cfg.params.resetUnits * c)] }) ∧
    (s.cfg.params.gapSetLow = true → s.answerAt 0 = .fault → exec .gap s = .next
      ({ s.consume 1 with trace := s.trace ++ [.set .low .fault] } : State).raisePinFault) ∧
    (s.cfg.params.gapSetLow = false → exec .gap s = .next
      { s with dcnt := none, trace := s.trace ++ [.delay (s.cfg.params.resetUnits * c)] })

/-- R152 inside BYTE and COLOR: if transition `t` is the first answered fault, the events are the first `2t − 2` of the
fault-free ones and the faulted transition, and the abort follows. -/
def Obligations.FaultInsideByteOrColorAborts : Prop :=
  ∀ (s : State) (c : Nat) (t : Nat), s.cal = some c → FirstFaultAt t s →
    (∀ v, t ≤ 16 → exec (.byte v) s = .next
      ({ s.consume t with
        trace := s.trace ++ ((byteBits v).flatMap (symbolEvents s.cfg c)).take (2 * t - 2) ++
          [.set (if t % 2 = 1 then .high else .low) .fault] } : State).raisePinFault) ∧
    (∀ r g b, t ≤ 48 → exec (.color r g b) s = .next
      ({ s.consume t with
        trace := s.trace ++ ((wireBits ⟨r, g, b⟩).flatMap (symbolEvents s.cfg c)).take (2 * t - 2) ++
          [.set (if t % 2 = 1 then .high else .low) .fault] } : State).raisePinFault)

/-- Frame of the micro-operations: whatever PIN answers they write no configuration, no request and no reset input,
leave CAL as it is, only add events to the trace, and if they end without a fault they leave MODE, SEQ, FAULT, the
sequence and the results as they were, and SHREG too but for COLOR, which loads it (R28). -/
def Obligations.MicroOperationsLeaveTheRestUnchanged : Prop :=
  ∀ (i : Instr) (s t : State), i.format = .symbol ∨ i.format = .byte8 ∨ i.format = .colorRgb ∨ i.format = .gap →
    exec i s = .next t →
    t.cal = s.cal ∧ t.rst = s.rst ∧ t.pending = s.pending ∧ t.rstIn = s.rstIn ∧ t.calInit = s.calInit ∧
    t.cfg = s.cfg ∧ s.trace <+: t.trace ∧ t.dcnt = none ∧
    (t = { t with
        mode := s.mode, seq := s.seq, fault := s.fault, len := s.len, colors := s.colors, results := s.results
        shreg := if i.format = .colorRgb then t.shreg else s.shreg } ∨
      t.results = s.results ++ [.pinFault])

/-- R76, R118: the nominal cycles of a symbol, a byte, a colour and the gap, none of which depends on the data, and the
High part of a colour, which does. -/
def Obligations.DurationSums : Prop :=
  ∀ (s : State) (c : Nat), s.cal = some c →
    (∀ bit : Bool, AllOk 2 s → ∃ t, exec (if bit then .sym1 else .sym0) s = .next t ∧
      nominalCycles t.trace = nominalCycles s.trace + (s.cfg.params.lMult + s.cfg.params.sMult) * c) ∧
    (∀ v : Byte, AllOk 16 s → ∃ t, exec (.byte v) s = .next t ∧
      nominalCycles t.trace = nominalCycles s.trace + 8 * (s.cfg.params.lMult + s.cfg.params.sMult) * c) ∧
    (∀ r g b : Byte, AllOk 48 s → ∃ t es, exec (.color r g b) s = .next t ∧ t.trace = s.trace ++ es ∧
      nominalCycles es = 24 * (s.cfg.params.lMult + s.cfg.params.sMult) * c ∧
      highCycles (waveform s.line es) =
        (24 * s.cfg.params.sMult +
          (wireBits ⟨r, g, b⟩).count true * (s.cfg.params.lMult - s.cfg.params.sMult)) * c) ∧
    (AllOk 1 s → ∃ t, exec .gap s = .next t ∧
      nominalCycles t.trace = nominalCycles s.trace + s.cfg.params.resetUnits * c) ∧
    (s.cfg = Config.taken →
      (s.cfg.params.lMult + s.cfg.params.sMult) * c = 3 * c ∧
      8 * (s.cfg.params.lMult + s.cfg.params.sMult) * c = 24 * c ∧
      24 * (s.cfg.params.lMult + s.cfg.params.sMult) * c = 72 * c ∧
      s.cfg.params.resetUnits * c = 300 * c)

/-- R115: the symbol for a channel value `v` at bit `k` is SYM1 if `(v div 2^k) mod 2 = 1` and SYM0 if not, and nothing
else is tested: in a BYTE, and (R28) in the bit the sequencer selects at `(ch, k)`. -/
def Obligations.SymbolSelectionIsTheExactBit : Prop :=
  (∀ (s : State) (c : Nat) (v : Byte), s.cal = some c → AllOk 16 s →
    ∃ t, exec (.byte v) s = .next t ∧
      t.trace = s.trace ++ ([7, 6, 5, 4, 3, 2, 1, 0] : List Nat).flatMap fun k =>
        if v.toNat / 2 ^ k % 2 = 1 then
          [.set .high .ok, .delay (s.cfg.params.lMult * c),
            .set .low .ok, .delay (s.cfg.params.sMult * c)]
        else
          [.set .high .ok, .delay (s.cfg.params.sMult * c),
            .set .low .ok, .delay (s.cfg.params.lMult * c)]) ∧
  ∀ (col : Color) (ch : Channel) (k : Fin 8),
    wireBit (wireWord col) ch k =
      decide ((match ch with | .green => col.g | .red => col.r | .blue => col.b).toNat / 2 ^ k.val % 2 = 1)

/-- R54: the wire word is `g ‖ r ‖ b`, and the `m`-th bit of a frame is bit `23 − (m mod 24)` of the wire word of colour
`m div 24`. R70, R71: a packed colour has `r` in bits 23:16, and the conversion swaps the two upper bytes. -/
def Obligations.FrameBitsInWireOrder : Prop :=
  (∀ col : Color, (wireWord col).toNat = col.g.toNat * 65536 + col.r.toNat * 256 + col.b.toNat ∧
    (packRgb col).toNat = col.r.toNat * 65536 + col.g.toNat * 256 + col.b.toNat ∧
    rgbToWire (packRgb col) = wireWord col) ∧
  ∀ (cs : List Color) (m : Nat),
    (frameBits cs)[m]? = (cs[m / 24]?).map fun col => (wireWord col).getLsbD (23 - m % 24)

/-- R116: the products are exact: for every `W_CAL` and every value CAL can hold, no DELAY argument the sequencer forms
reaches `2^W_DLY`, each is one of the three products, and with `CAL = 0` each is 0. -/
def Obligations.DelayArgumentsNeverWrap : Prop :=
  ∀ (s : State) (p : Pos) (c : Nat) (n : Nat),
    s.cal = some c → c < 2 ^ s.cfg.params.wCal → p.transition = none → delayArgument p s = .ok n →
    n < 2 ^ s.cfg.params.wDly ∧
    (n = s.cfg.params.lMult * c ∨ n = s.cfg.params.sMult * c ∨
      n = s.cfg.params.resetUnits * c) ∧
    (c = 0 → n = 0)

/-- R78: in every legal configuration the High part is at least 60 % of the bit period for a 1 and at most 40 % for a
0; with the values taken it is 2/3 and 1/3. -/
def Obligations.HighFractionsMeetTheProperty : Prop :=
  ∀ (cfg : Config) (c : Nat),
    6 * (hiCycles cfg c true + loCycles cfg c true) ≤ 10 * hiCycles cfg c true ∧
    10 * hiCycles cfg c false ≤ 4 * (hiCycles cfg c false + loCycles cfg c false) ∧
    (cfg = Config.taken →
      3 * hiCycles cfg c true = 2 * (hiCycles cfg c true + loCycles cfg c true) ∧
      3 * hiCycles cfg c false = hiCycles cfg c false + loCycles cfg c false)

/-! ### CONSTRUCT -/

/-- R90: CONSTRUCT in Absent issues one SET_LOW; answered ok the encoder exists, answered fault nothing is constructed;
in any other mode it has no step. -/
def Obligations.ConstructFollowsItsPseudocode : Prop :=
  ∀ (s : State) (cal : Nat),
    (s.mode = .absent → s.answerAt 0 = .ok → exec (.construct cal) s = .next
      { s.consume 1 with
        line := .low, cal := some cal, mode := .idle, fault := false
        trace := [.set .low .ok], results := s.results ++ [.ok] }) ∧
    (s.mode = .absent → s.answerAt 0 = .fault → ∃ t,
      exec (.construct cal) s = .next t ∧ t.trace.getLast? = some (.set .low .fault) ∧
      t = { s.consume 1 with line := .unknown, trace := t.trace, results := s.results ++ [.pinFault] }) ∧
    (s.mode ≠ .absent → ∀ t, exec (.construct cal) s ≠ .next t)

/-- R102 with the model's names for it (log 5): CONSTRUCT outside Absent and WRITE outside Idle are refused, and in the
port binding `start` is ignored while `busy = 1` and while no encoder exists. -/
def Obligations.OperationsAreAdmittedByMode : Prop :=
  (∀ (s : State) (cal : Nat), s.mode ≠ .absent → exec (.construct cal) s = .refused .notAdmitted) ∧
  (∀ (s : State) (cs : List Color), s.mode ≠ .idle → exec (.write cs) s = .refused .notAdmitted) ∧
  (∀ (wCal wLen : Nat) (s : State) (io : PortIn wCal wLen) (len : BitVec wLen), s.busy = true ∨ s.mode = .absent ∨ io.rst = true →
    tick { io with start := true, len := len } s = tick { io with start := false, len := len } s)

/-- R33: the state after reset, and the state before any construction. -/
def Obligations.ResetStateIsTheTable : Prop :=
  (State.reset.cal = some State.reset.calInit ∧ State.reset.line = .low ∧ State.reset.mode = .idle ∧
    State.reset.seq = none ∧ State.reset.busy = false ∧ State.reset.fault = false ∧ State.reset.dcnt = none ∧
    State.reset.shreg = none ∧ State.reset.trace = [.set .low .ok]) ∧
  ∀ (cfg : Config) (ci : Nat),
    (State.beforeConstruction cfg ci).mode = .absent ∧ (State.beforeConstruction cfg ci).line = .unknown ∧
    (State.beforeConstruction cfg ci).cal = none ∧ (State.beforeConstruction cfg ci).seq = none ∧
    (State.beforeConstruction cfg ci).dcnt = none ∧ (State.beforeConstruction cfg ci).shreg = none

/-! ### Reset -/

/-- R180: the release of `rst` performs CONSTRUCT with `cal_init`, and the state after it is the table of R33. -/
def Obligations.ResetReleaseConstructs : Prop :=
  ∀ s : State, s.Inv → s.rst = true → s.rstNow = false → s.answerAt 0 = .ok →
    ∃ t, step s = .next t ∧ t.cal = some s.calInit ∧ t.line = .low ∧ t.mode = .idle ∧ t.busy = false ∧
      t.fault = false ∧ t.seq = none ∧ t.dcnt = none ∧ t.shreg = none ∧ t.trace = [.set .low .ok] ∧ t.rst = false

/-- R183: a reset, in any mode and at any position, ends a running WRITE with no result, no further event and no gap,
and MODE is Absent; then the construction drives the line Low. -/
def Obligations.ResetCutsAWrite : Prop :=
  ∀ s : State, s.rstNow = true →
    ∃ t, step s = .next t ∧ t.mode = .absent ∧ t.trace = s.trace ∧ t.results = s.results ∧ t.seq = none ∧
      t.rst = true ∧
      (t.rstNow = false → t.answerAt 0 = .ok →
        ∃ u, runSteps 2 s = .next u ∧ u.line = .low ∧ u.mode = .idle)

/-! ### WRITE -/

/-- R92: the start of a WRITE, and the table of the sequencer, row by row. `wireBit (wireWord col) ch k` is the rule's
`W_i[23 − 8×ch − (7 − k)]`; State.Inv says that SHREG holds `W_i` there. -/
def Obligations.SequencerFollowsItsTable : Prop :=
  (∀ (s : State) (cs : List Color), s.mode = .idle → exec (.write cs) s = .next
    { s with
      mode := .transmitting, fault := false, len := cs.length, colors := cs
      seq := some (if 0 < cs.length then .bit 0 .green 7 .setHigh
        else if s.cfg.params.gapSetLow then .gap .setLow else .gap .delay) }) ∧
  ∀ (s : State) (c : Nat), NoReset 1 s → s.mode = .transmitting → s.cal = some c →
    (∀ i ch k col, s.seq = some (.bit i ch k .setHigh) → s.colors[i]? = some col → step s = .next
      (let u : State :=
        { s.consume 1 with
          rstIn := s.rstIn.tail
          shreg := if ch = .green ∧ k = 7 then some (wireWord col) else s.shreg
          trace := s.trace ++ [.set .high (s.answerAt 0)] }
      match s.answerAt 0 with
      | .ok => { u with line := .high, seq := some (.bit i ch k .delayHigh) }
      | .fault => u.raisePinFault)) ∧
    (∀ i ch k col, s.Inv → s.seq = some (.bit i ch k .delayHigh) → s.colors[i]? = some col → step s = .next
      { s with
        rstIn := s.rstIn.tail, dcnt := none, seq := some (.bit i ch k .setLow)
        trace := s.trace ++ [.delay (if wireBit (wireWord col) ch k then s.cfg.params.lMult * c
          else s.cfg.params.sMult * c)] }) ∧
    (∀ i ch k, s.seq = some (.bit i ch k .setLow) → step s = .next
      (let u : State :=
        { s.consume 1 with rstIn := s.rstIn.tail, trace := s.trace ++ [.set .low (s.answerAt 0)] }
      match s.answerAt 0 with
      | .ok => { u with line := .low, seq := some (.bit i ch k .delayLow) }
      | .fault => u.raisePinFault)) ∧
    (∀ i ch k col, s.Inv → s.seq = some (.bit i ch k .delayLow) → s.colors[i]? = some col → step s = .next
      { s with
        rstIn := s.rstIn.tail, dcnt := none
        seq := some (if h : 0 < k.val then .bit i ch ⟨k.val - 1, by omega⟩ .setHigh
          else match ch with
            | .green => .bit i .red 7 .setHigh
            | .red => .bit i .blue 7 .setHigh
            | .blue => if i + 1 < s.len then .bit (i + 1) .green 7 .setHigh
              else if s.cfg.params.gapSetLow then .gap .setLow else .gap .delay)
        trace := s.trace ++ [.delay (if wireBit (wireWord col) ch k then s.cfg.params.sMult * c
          else s.cfg.params.lMult * c)] }) ∧
    (s.seq = some (.gap .setLow) → step s = .next
      (let u : State :=
        { s.consume 1 with rstIn := s.rstIn.tail, trace := s.trace ++ [.set .low (s.answerAt 0)] }
      match s.answerAt 0 with
      | .ok => { u with line := .low, seq := some (.gap .delay) }
      | .fault => u.raisePinFault)) ∧
    (s.seq = some (.gap .delay) → step s = .next
      { s with
        rstIn := s.rstIn.tail, dcnt := none, shreg := none, len := 0, colors := [], seq := none, mode := .idle
        cal := some ((c + s.cfg.params.calStep) % 2 ^ s.cfg.params.wCal)
        trace := s.trace ++ [.delay (s.cfg.params.resetUnits * c)], results := s.results ++ [.ok] })

/-- R153: the state after an abort at any transition of a WRITE; the next WRITE is admitted. -/
def Obligations.AbortLeavesTheStateOfPinFault : Prop :=
  ∀ (s u : State) (p q : Pos) (l : Level), NoReset 1 s → s.mode = .transmitting → s.seq = some p →
    p.transition = some (l, q) → loadColor p s = .ok u → s.answerAt 0 = .fault →
    ∃ t, step s = .next t ∧ t.mode = .idle ∧ t.seq = none ∧ t.dcnt = none ∧ t.shreg = none ∧ t.line = .unknown ∧
      t.cal = s.cal ∧ t.fault = true ∧ t.busy = false ∧ t.results = s.results ++ [.pinFault] ∧
      t.trace = s.trace ++ [.set l .fault] ∧ ∀ cs, ∃ v, exec (.write cs) t = .next v

/-- R98: the last step of a WRITE adds CAL_STEP modulo `2^W_CAL`, after the gap's DELAY; with `CAL_STEP = 0` no WRITE
changes CAL; a WRITE that ends with PinFault does not change it. -/
def Obligations.CalStepsOnlyAfterOk : Prop :=
  (∀ (s : State) (c : Nat), NoReset 1 s → s.mode = .transmitting → s.seq = some (.gap .delay) →
    s.cal = some c → c < 2 ^ s.cfg.params.wCal →
    ∃ t c', step s = .next t ∧ t.cal = some c' ∧ c' = (c + s.cfg.params.calStep) % 2 ^ s.cfg.params.wCal ∧
      (s.cfg.params.calStep = 0 → c' = c) ∧ t.results = s.results ++ [.ok] ∧
      t.trace = s.trace ++ [.delay (s.cfg.params.resetUnits * c)]) ∧
  (∀ (s t : State), NoReset 1 s → s.mode = .transmitting → s.seq.isSome = true → s.seq ≠ some (.gap .delay) →
    step s = .next t → t.cal = s.cal)

/-- R91, R97, R104: a WRITE whose transitions are all answered ok ends after `96 × len + 1 + g` steps with Ok, having
appended exactly the frame of its colours at the CAL it started with; CAL steps, LINE is as the frame leaves it, and
nothing else has changed. -/
def Obligations.WriteTransmitsItsFrame : Prop :=
  ∀ (s : State) (c : Nat) (cs : List Color), s.mode = .idle → s.cal = some c →
    NoReset (eventCount s.cfg cs.length) s → AllOk (transitionCount s.cfg cs.length) s →
    ∃ s0, exec (.write cs) s = .next s0 ∧
      runSteps (eventCount s.cfg cs.length) s0 = .next
        { s.consume (transitionCount s.cfg cs.length) with
          cal := some (nextCal s.cfg c), line := lineAfter s.line (frameEvents s.cfg c cs), mode := .idle
          seq := none, fault := false, dcnt := none, shreg := none, len := 0, colors := []
          trace := s.trace ++ frameEvents s.cfg c cs, results := s.results ++ [.ok]
          rstIn := s.rstIn.drop (eventCount s.cfg cs.length) }

/-- R103: for every sequence, every CAL and every answers of PIN, the sequencer, run for as many steps as the big step
of R91 issues events, gives the big step's trace, result and end state. -/
def Obligations.SequencerIsTheBigStep : Prop :=
  ∀ (s : State) (c : Nat) (cs : List Color), s.mode = .idle → s.cal = some c →
    let w := writeWhole c cs s
    let n := w.trace.length - s.trace.length
    NoReset n s → runSteps n (s.startWrite cs.length cs) = .next { w with rstIn := s.rstIn.drop n }

/-- R152: a WRITE whose `t`-th transition is the first to fault ends after `2t − 1` events: the first `2t − 2` of the
fault-free trace, and the faulted transition. -/
def Obligations.FaultedWriteIsCutAtTheTransition : Prop :=
  ∀ (s : State) (c : Nat) (cs : List Color) (t : Nat), s.mode = .idle → s.cal = some c →
    FirstFaultAt t s → t ≤ transitionCount s.cfg cs.length → NoReset (2 * t - 1) s →
    ∃ u, runSteps (2 * t - 1) (s.startWrite cs.length cs) = .next u ∧
      u.trace = s.trace ++ (frameEvents s.cfg c cs).take (2 * t - 2) ++
        [if t % 2 = 1 ∧ t ≤ 48 * cs.length then .set .high .fault else .set .low .fault] ∧
      u.results = s.results ++ [.pinFault] ∧ u.mode = .idle ∧ u.line = .unknown ∧ u.cal = s.cal ∧ u.fault = true ∧
      u.seq = none ∧ u.pending = s.pending

/-- R151: a WRITE ends with PinFault exactly when one of its transitions is answered fault, and with Ok exactly when
all are answered ok; CONSTRUCT returns PinFault exactly when its one SET_LOW is answered fault; a DELAY raises
nothing. -/
def Obligations.PinFaultExactlyWhenATransitionFaults : Prop :=
  (∀ (s : State) (c : Nat) (cs : List Color), s.mode = .idle → s.cal = some c →
    NoReset (eventCount s.cfg cs.length) s →
    ∃ n u, n ≤ eventCount s.cfg cs.length ∧ runSteps n (s.startWrite cs.length cs) = .next u ∧ u.mode = .idle ∧
      (u.results = s.results ++ [.ok] ↔ AllOk (transitionCount s.cfg cs.length) s) ∧
      (u.results = s.results ++ [.pinFault] ↔ ¬ AllOk (transitionCount s.cfg cs.length) s)) ∧
  (∀ (s : State) (cal : Nat), s.mode = .absent →
    ∃ t, exec (.construct cal) s = .next t ∧
      (t.results = s.results ++ [.pinFault] ↔ s.answerAt 0 = .fault) ∧
      (t.results = s.results ++ [.ok] ↔ s.answerAt 0 = .ok)) ∧
  (∀ (s : State) (n : Nat), ∃ t, exec (.delay n) s = .next t ∧ t.results = s.results ∧ t.mode = s.mode)

/-- R94: the empty sequence reads nothing and issues one gap; it can fail exactly when `GAP_SET_LOW` is true. -/
def Obligations.EmptyWriteIsOneGap : Prop :=
  ∀ (s : State) (c : Nat), s.mode = .idle → s.cal = some c → NoReset 2 s →
    (s.cfg.params.gapSetLow = true → s.answerAt 0 = .ok →
      ∃ u, runSteps 2 (s.startWrite 0 []) = .next u ∧ u.results = s.results ++ [.ok] ∧ u.line = .low ∧
        u.trace = s.trace ++ [.set .low .ok, .delay (s.cfg.params.resetUnits * c)]) ∧
    (s.cfg.params.gapSetLow = true → s.answerAt 0 = .fault →
      ∃ u, runSteps 1 (s.startWrite 0 []) = .next u ∧ u.results = s.results ++ [.pinFault] ∧
        u.trace = s.trace ++ [.set .low .fault]) ∧
    (s.cfg.params.gapSetLow = false →
      ∃ u, runSteps 1 (s.startWrite 0 []) = .next u ∧ u.results = s.results ++ [.ok] ∧ u.line = s.line ∧
        u.trace = s.trace ++ [.delay (s.cfg.params.resetUnits * c)])

/-- R95: the counts of a WRITE that returns Ok, from any state a run reaches. -/
def Obligations.WriteEmitsTheCountsOfItsLength : Prop :=
  ∀ (s : State) (c : Nat) (cs : List Color), s.Inv → s.mode = .idle → s.cal = some c →
    NoReset (eventCount s.cfg cs.length) s → AllOk (transitionCount s.cfg cs.length) s →
    ∃ u bits gap g, runSteps (eventCount s.cfg cs.length) (s.startWrite cs.length cs) = .next u ∧
      g = (if s.cfg.params.gapSetLow then 1 else 0) ∧
      u.results = s.results ++ [.ok] ∧ u.trace = s.trace ++ (bits ++ gap) ∧
      (frameBits cs).length = 24 * cs.length ∧
      ((waveform s.line (bits ++ gap)).countP fun seg => decide (seg.1 = .high)) = 24 * cs.length ∧
      (bits ++ gap).countP Event.isTransition = 48 * cs.length + g ∧
      ((bits ++ gap).countP fun e => !e.isTransition) = 48 * cs.length + 1 ∧
      (bits ++ gap).length = 96 * cs.length + 1 + g ∧
      bits.length = 96 * cs.length ∧ gap.getLast? = some (.delay (s.cfg.params.resetUnits * c))

/-- R96: the nominal duration of a WRITE that returns Ok; with the values taken `(72 × len + 300) × CAL`, and
`1308 × CAL` for 14 colours. -/
def Obligations.WriteLastsItsNominalDuration : Prop :=
  ∀ (s : State) (c : Nat) (cs : List Color), s.mode = .idle → s.cal = some c →
    NoReset (eventCount s.cfg cs.length) s → AllOk (transitionCount s.cfg cs.length) s →
    ∃ u, runSteps (eventCount s.cfg cs.length) (s.startWrite cs.length cs) = .next u ∧
      nominalCycles u.trace = nominalCycles s.trace +
        (24 * cs.length * (s.cfg.params.lMult + s.cfg.params.sMult) + s.cfg.params.resetUnits) * c ∧
      (s.cfg = Config.taken → nominalCycles u.trace = nominalCycles s.trace + (72 * cs.length + 300) * c) ∧
      (s.cfg = Config.taken → cs.length = 14 → nominalCycles u.trace = nominalCycles s.trace + 1308 * c)

/-- R117: next(), and that the sequencer of a WRITE that returns Ok stands, step after step, at the positions of R117 in
their order, whatever the colours are. -/
def Obligations.SequencerVisitsThePositionsInOrder : Prop :=
  (∀ (cfg : Config) (len i : Nat) (ch : Channel) (k : Fin 8),
    nextPos cfg len i ch k =
      if h : 0 < k.val then .bit i ch ⟨k.val - 1, by omega⟩ .setHigh
      else match ch with
        | .green => .bit i .red 7 .setHigh
        | .red => .bit i .blue 7 .setHigh
        | .blue => if i + 1 < len then .bit (i + 1) .green 7 .setHigh
          else if cfg.params.gapSetLow then .gap .setLow else .gap .delay) ∧
  ∀ (s : State) (c : Nat) (cs : List Color) (k : Nat), s.mode = .idle → s.cal = some c →
    k ≤ eventCount s.cfg cs.length → NoReset k s → AllOk (transitionCount s.cfg cs.length) s →
    (positions s.cfg cs.length).length = eventCount s.cfg cs.length ∧
    ∃ u, runSteps k (s.startWrite cs.length cs) = .next u ∧ u.seq = (positions s.cfg cs.length)[k]?

/-- R101: the events of a WRITE that returns Ok are a function of the colours, CAL and the configuration: two runs that
agree on these agree on every event, whatever LINE, FAULT, the earlier trace, the queue and PIN's list are. -/
def Obligations.WriteTraceIsDetermined : Prop :=
  ∀ (s t : State) (c : Nat) (cs : List Color), s.mode = .idle → t.mode = .idle → s.cal = some c →
    t.cal = some c → s.cfg = t.cfg → NoReset (eventCount s.cfg cs.length) s →
    NoReset (eventCount s.cfg cs.length) t → AllOk (transitionCount s.cfg cs.length) s →
    AllOk (transitionCount s.cfg cs.length) t →
    ∃ u v es, runSteps (eventCount s.cfg cs.length) (s.startWrite cs.length cs) = .next u ∧
      runSteps (eventCount s.cfg cs.length) (t.startWrite cs.length cs) = .next v ∧
      u.trace = s.trace ++ es ∧ v.trace = t.trace ++ es

/-- R99: two WRITEs issued with nothing between them, from HOST's queue: each puts its whole frame on the line, its own
gap included, the second at the CAL the first left. The queue and its words are the model's (log 6, 8). -/
def Obligations.BackToBackWritesKeepTheirGaps : Prop :=
  ∀ (s : State) (c : Nat) (cs ds : List Color), s.mode = .idle → s.cal = some c →
    s.pending = [encode s.cfg.params.wCal (.write cs), encode s.cfg.params.wCal (.write ds)] →
    NoReset (eventCount s.cfg cs.length + eventCount s.cfg ds.length + 2) s →
    AllOk (transitionCount s.cfg cs.length + transitionCount s.cfg ds.length) s →
    ∃ u, runSteps (eventCount s.cfg cs.length + eventCount s.cfg ds.length + 2) s = .next u ∧
      u.trace = s.trace ++ frameEvents s.cfg c cs ++ frameEvents s.cfg (nextCal s.cfg c) ds ∧
      u.results = s.results ++ [.ok, .ok] ∧ u.mode = .idle ∧ u.pending = []

/-- R113 as the sequencer runs it: 96 steps from the first position of a colour are exec of COLOR, and then SEQ is at
the position after it. -/
def Obligations.ColorIsNinetySixSequencerSteps : Prop :=
  ∀ (s : State) (c : Nat) (i : Nat) (col : Color), NoReset 96 s → s.mode = .transmitting →
    s.cal = some c → s.seq = some (.bit i .green 7 .setHigh) → s.colors[i]? = some col → AllOk 48 s →
    ∃ t, exec (.color col.r col.g col.b) s = .next t ∧
      runSteps 96 s = .next
        { t with
          seq := some (if i + 1 < s.len then .bit (i + 1) .green 7 .setHigh
            else if s.cfg.params.gapSetLow then .gap .setLow else .gap .delay)
          rstIn := s.rstIn.drop 96 }

/-- R93: while a WRITE runs HOST has no step and cannot read STATUS; a step ends the WRITE with exactly one result, or
returns none. -/
def Obligations.HostIsBlockedUntilTheOneResult : Prop :=
  ∀ s t : State, NoReset 1 s → s.mode = .transmitting → s.seq.isSome = true → step s = .next t →
    s.statusForHost = none ∧ t.pending = s.pending ∧
    ((t.mode = .transmitting ∧ t.results = s.results) ∨
      (t.mode = .idle ∧ ∃ r, t.results = s.results ++ [r]))

/-- R100: 'Once started, a WRITE ends only by its last step or by PinFault', or by a reset. -/
def Obligations.WriteEndsOnlyByItsLastStepOrPinFault : Prop :=
  ∀ (s t : State) (p : Pos), s.Inv → s.mode = .transmitting → s.seq = some p → step s = .next t →
    t.mode = .transmitting ∨
    (p = .gap .delay ∧ t.mode = .idle ∧ t.results = s.results ++ [.ok]) ∨
    (s.answerAt 0 = .fault ∧ (∃ l q, p.transition = some (l, q)) ∧ t.mode = .idle ∧
      t.results = s.results ++ [.pinFault]) ∨
    (s.rstNow = true ∧ t.mode = .absent ∧ t.results = s.results)

/-- R117, R100: from any position a run reaches, whatever PIN answers, the WRITE has ended within `96 × len + 1 + g`
steps. -/
def Obligations.EveryWriteEnds : Prop :=
  ∀ s : State, s.Inv → s.mode = .transmitting → NoReset (eventCount s.cfg s.len) s →
    ∃ n t, n ≤ eventCount s.cfg s.len ∧ runSteps n s = .next t ∧ t.mode = .idle

/-- Frame of the host operations: the start of a WRITE writes MODE, SEQ, FAULT and the operands; CONSTRUCT writes LINE,
CAL, MODE, FAULT, the trace, the results and PIN's answers; neither writes anything else. -/
def Obligations.HostOperationsLeaveTheRestUnchanged : Prop :=
  (∀ (s t : State) (cs : List Color), exec (.write cs) s = .next t →
    t = { s with mode := t.mode, seq := t.seq, fault := t.fault, len := t.len, colors := t.colors }) ∧
  (∀ (s t : State) (cal : Nat), exec (.construct cal) s = .next t →
    t = { s with
      line := t.line, cal := t.cal, mode := t.mode, fault := t.fault, trace := t.trace, results := t.results
      answers := t.answers, draws := t.draws })

/-! ### Rules about every step -/

/-- Every step keeps the invariant of the state. -/
def Obligations.EveryStepKeepsTheInvariant : Prop :=
  ∀ s t : State, s.Inv → step s = .next t → t.Inv

/-- The invariant holds after reset and before any construction, whatever `W_CAL` bits `cal_init` has. -/
def Obligations.ResetMeetsTheInvariant : Prop :=
  State.reset.Inv ∧ ∀ (cfg : Config) (ci : Nat), ci < 2 ^ cfg.params.wCal →
    (State.beforeConstruction cfg ci).Inv

/-- From a state a run reaches no step faults: a position's colour, SHREG and CAL always have their values. -/
def Obligations.NoReachedStateFaults : Prop :=
  ∀ (s : State) (f : Fault), s.Inv → step s ≠ .fault f

/-- R35: along every run, with no fault recorded since construction, Idle means the line is Low, and while transmitting
it is High exactly at DH and SL; a WRITE that ends with PinFault leaves Idle and LINE Unknown. -/
def Obligations.LineFollowsThePosition : Prop :=
  ∀ (s0 s : State) (n : Nat), s0.Inv → runSteps n s0 = .next s →
    (s.noFaultRecorded = true → s.mode = .idle → s.line = .low) ∧
    (s.noFaultRecorded = true → s.mode = .transmitting →
      ∃ p, s.seq = some p ∧
        s.line = (match p with
          | .bit _ _ _ .delayHigh => Line.high
          | .bit _ _ _ .setLow => Line.high
          | _ => Line.low)) ∧
    (∀ t, s.mode = .transmitting → step s = .next t → t.results = s.results ++ [.pinFault] →
      t.mode = .idle ∧ t.line = .unknown)

/-- R23: the only moves of MODE: Absent to Idle by a CONSTRUCT that succeeds, Idle to Transmitting by the start of a
WRITE, Transmitting to Idle by its end with either result, any mode to Absent by a reset. -/
def Obligations.ModeMovesOnlyAsListed : Prop :=
  ∀ s t : State, s.Inv → step s = .next t →
    t.mode = s.mode ∨
    (s.mode = .absent ∧ t.mode = .idle ∧ s.answerAt 0 = .ok ∧ t.results = s.results ++ [.ok] ∧
      (s.rst = true ∨ ∃ w rest cal, s.pending = w :: rest ∧ decode s.cfg.params.wCal w = .ok (.construct cal))) ∨
    (s.mode = .idle ∧ t.mode = .transmitting ∧
      ∃ w rest cs, s.pending = w :: rest ∧ decode s.cfg.params.wCal w = .ok (.write cs) ∧ t.pending = rest) ∨
    (s.mode = .transmitting ∧ t.mode = .idle ∧
      (t.results = s.results ++ [.ok] ∨ t.results = s.results ++ [.pinFault])) ∨
    (s.rstNow = true ∧ t.mode = .absent)

/-- R21: CAL holds no value before construction; it is written by CONSTRUCT with its argument, at the end of a WRITE that
returns Ok, and by nothing else while the encoder exists; never while a WRITE runs, and never after construction when
`CAL_STEP = 0`. A reset takes its value away (R33). -/
def Obligations.CalIsWrittenOnlyAsListed : Prop :=
  ∀ s t : State, s.Inv → step s = .next t →
    (s.mode = .absent → s.cal = none) ∧
    (t.cal = s.cal ∨
      (s.mode = .absent ∧ t.mode = .idle ∧
        ((s.rst = true ∧ t.cal = some s.calInit) ∨
          ∃ w rest cal, s.pending = w :: rest ∧ decode s.cfg.params.wCal w = .ok (.construct cal) ∧ t.cal = some cal)) ∨
      (s.seq = some (.gap .delay) ∧ t.mode = .idle ∧ t.results = s.results ++ [.ok] ∧
        t.cal = s.cal.map (nextCal s.cfg)) ∨
      (s.rstNow = true ∧ t.mode = .absent ∧ t.cal = none)) ∧
    (t.mode = .transmitting → t.cal = s.cal) ∧
    (s.cfg.params.calStep = 0 → s.mode ≠ .absent → s.rstNow = false → t.cal = s.cal)

/-- R22: LINE changes only by a transition, to the level set if it is answered ok and to Unknown if not, or by a reset,
which leaves it unspecified (log 4); it is Low after construction and Unknown before. -/
def Obligations.OnlyTransitionsMoveTheLine : Prop :=
  ∀ s t : State, s.Inv → step s = .next t →
    (t.line = s.line ∨
      (∃ l a, t.trace.getLast? = some (.set l a) ∧ (s.mode = .transmitting → t.trace = s.trace ++ [.set l a]) ∧
        t.line = (match l, a with
          | .low, .ok => Line.low
          | .high, .ok => Line.high
          | _, .fault => Line.unknown)) ∨
      (s.rstNow = true ∧ t.mode = .absent ∧ t.line = .unknown)) ∧
    (s.mode = .absent → t.mode = .idle → t.line = .low) ∧
    (t.mode = .absent → t.line = .unknown)

/-- R25: what becomes of FAULT at each step of a run: a WRITE ends with FAULT 1 exactly when its result is PinFault, it
is 0 while a WRITE runs and after CONSTRUCT, and it is held while Idle. -/
def Obligations.FaultFlagHoldsTheLastResult : Prop :=
  ∀ s t : State, s.Inv → step s = .next t →
    (t.busy = true ↔ t.mode = .transmitting) ∧
    (t.mode = .transmitting → t.fault = false) ∧
    (s.mode = .transmitting → t.mode = .idle →
      (t.fault = true ↔ t.results = s.results ++ [.pinFault]) ∧
      (t.fault = false ↔ t.results = s.results ++ [.ok])) ∧
    (s.mode = .idle → t.mode = .idle → t.fault = s.fault) ∧
    (s.mode = .absent → t.mode = .idle → t.fault = false)

/-- R30: no step changes the configuration or the port `cal_init`. -/
def Obligations.NoStepChangesTheConfiguration : Prop :=
  ∀ s t : State, step s = .next t → t.cfg = s.cfg ∧ t.calInit = s.calInit

/-! ### The reference port binding -/

/-- R137: DCNT counts down once a cycle, and the DELAY returns in the cycle it reaches 0. -/
def Obligations.PortDelayCountsDown : Prop :=
  ∀ (wCal wLen : Nat) (io : PortIn wCal wLen) (s : State) (p : Pos) (d n : Nat), io.rst = false → s.rst = false →
    s.mode = .transmitting → s.seq = some p → p.transition = none → s.dcnt = some d → 1 ≤ d →
    delayArgument p s = .ok n →
    (∀ j, j < d → tickMany io j s = .next { s with dcnt := some (d - j) }) ∧
    tickMany io d s = .next (afterDelay p (delayFor n s))

/-- R34, R137: a transition answered ok takes one cycle and the DELAY of `n` after it takes `n`, and the state they leave
is the one the sequencer's two steps leave. The colour on `col_rgb` is taken at the position that reads one. -/
def Obligations.PortCyclesFollowTheSequencer : Prop :=
  ∀ (wCal wLen : Nat) (io : PortIn wCal wLen) (s u : State) (p q : Pos) (l : Level) (n : Nat), io.rst = false → io.pinErr = false →
    s.rst = false → s.mode = .transmitting → s.dcnt = none → s.seq = some p → p.transition = some (l, q) →
    u = { (loadPort p io.colRgb s).answered l .ok with seq := some q } → delayArgument q u = .ok n →
    tickMany io (n + 1) s = .next (afterDelay q (delayFor n u)) ∧
    (∀ i col, p.readsColor = some i → memRead i s = some col → io.colRgb = packRgb col →
      loadColor p s = .ok (loadPort p io.colRgb s))

/-- R157, R34: `rst` wins over `pin_err` and everything else in its cycle and reports nothing; the cycle it falls
performs CONSTRUCT with `cal_init`. -/
def Obligations.PortResetWins : Prop :=
  ∀ (wCal wLen : Nat) (io : PortIn wCal wLen) (s : State),
    (io.rst = true → ∃ t, tick io s = .next t ∧ t.mode = .absent ∧ t.results = s.results ∧ t.trace = s.trace ∧
      (portOut wLen s t).busy = false ∧ (portOut wLen s t).done = false) ∧
    (io.rst = false → s.rst = true → s.mode = .absent → io.pinErr = false →
      ∃ t, tick io s = .next t ∧ t.mode = .idle ∧ t.cal = some io.calInit.toNat ∧ t.line = .low ∧
        t.trace = [.set .low .ok])

/-! ### Timing -/

/-- R194: on the wire under NO_DISTURB the two phases of a symbol last `hi + OVH` and `lo + OVH` cycles, and the bit
period is `(L_MULT + S_MULT) × CAL + 2 × OVH` for both symbols. -/
def Obligations.WallClockBitPeriodIsEqual : Prop :=
  ∀ (pl : Platform) (cfg : Config) (c : Nat) (bit : Bool) (l : Line) (age : Nat) (lv : Level),
    phases pl l age (symbolEvents cfg c bit ++ [.set lv .ok]) [] =
      [⟨l, age + pl.ovhSet, true⟩, ⟨.high, hiCycles cfg c bit + pl.ovh, true⟩,
        ⟨.low, loCycles cfg c bit + pl.ovh, true⟩, ⟨lv.toLine, 0, false⟩] ∧
    wallBitPeriod pl cfg c bit = (cfg.params.lMult + cfg.params.sMult) * c + 2 * pl.ovh

/-- R136, R138: ENV's stretches never shorten a trace and never change the order, the number or the levels of its
phases; the overheads never make it shorter than nominal. -/
def Obligations.StretchOnlyLengthens : Prop :=
  ∀ (pl : Platform) (t : List Event) (st : List Nat) (l : Line) (age : Nat),
    nominalCycles t ≤ wallCycles pl t [] ∧ wallCycles pl t [] ≤ wallCycles pl t st ∧
    (phases pl l age t st).map Phase.level = (phases pl l age t []).map Phase.level ∧
    (noDisturb st = true → wallCycles pl t st = wallCycles pl t [])

/-- R188, R99: after the frame of a WRITE that returned Ok the line has been Low for at least `RESET_UNITS × CAL`
cycles, whatever the stretches, so the next frame is fresh if the gap meets P3. The one exception is an empty WRITE
without `GAP_SET_LOW` on a line not known to be Low. -/
def Obligations.NextFrameIsFreshAfterOk : Prop :=
  ∀ (pl : Platform) (cfg : Config) (c : Nat) (cs : List Color) (l : Line) (age : Nat) (st : List Nat),
    cs ≠ [] ∨ cfg.params.gapSetLow = true ∨ l = .low →
    gapCycles cfg c ≤ lowAge pl l age (frameEvents cfg c cs) st ∧
    (timingP3 pl cfg c = true → fresh pl (lowAge pl l age (frameEvents cfg c cs) st) = true)

/-- R24, R27, R34: in the port binding every cycle keeps the widths, for every `W_CAL` and every `W_LEN`: the index of SEQ
lies below the sampled `len` and so in `W_LEN` bits, CAL in `W_CAL` and DCNT in `W_DLY`; so `col_idx` is the whole index.
They hold after reset. That `col_idx` shows the state after the cycle is the model's choice (log 18). -/
def Obligations.PortRegistersKeepTheirWidths : Prop :=
  (∀ wLen : Nat, State.reset.PortInv wLen) ∧
  ∀ (wLen : Nat) (s t : State) (io : PortIn s.cfg.params.wCal wLen), s.PortInv wLen → tick io s = .next t →
    t.PortInv wLen ∧ (portOut wLen s t).colIdx.map BitVec.toNat = t.colIdx
end

