-- ==== Sys2Proof/Laws/Decode.lean ====
section
/-! SUPPORT. Operation words: bytes and numbers, selecting bytes, and the colours of a WRITE. -/

namespace Sys2Proof

theorem length_leBytes (k n : Nat) : (leBytes k n).length = k := by
  induction k generalizing n with
  | zero => rfl
  | succ k ih => simp only [leBytes, List.length_cons, ih]

theorem leNat_leBytes (k n : Nat) : leNat (leBytes k n) = n % 256 ^ k := by
  induction k generalizing n with
  | zero => simp [leBytes, leNat, Nat.mod_one]
  | succ k ih =>
    simp only [leBytes, leNat, ih, BitVec.toNat_ofNat]
    rw [show 256 ^ (k + 1) = 256 * 256 ^ k by ring, Nat.mod_mul]

/-- A number of `k` bits fits the whole bytes of `k` bits. -/
theorem two_pow_le_bytesFor (k : Nat) : 2 ^ k ≤ 256 ^ bytesFor k := by
  rw [show 256 = 2 ^ 8 from rfl, ← Nat.pow_mul]
  exact Nat.pow_le_pow_right (by decide) (by simp only [bytesFor]; omega)

theorem leNat_leBytes_bytesFor {k n : Nat} (h : n < 2 ^ k) : leNat (leBytes (bytesFor k) n) = n := by
  rw [leNat_leBytes, Nat.mod_eq_of_lt (Nat.lt_of_lt_of_le h (two_pow_le_bytesFor k))]

theorem leNat_lt (bs : List Byte) : leNat bs < 256 ^ bs.length := by
  induction bs with
  | nil => simp [leNat]
  | cons b bs ih =>
    simp only [leNat, List.length_cons, Nat.pow_succ]
    have := b.isLt
    omega

theorem leBytes_leNat (bs : List Byte) : leBytes bs.length (leNat bs) = bs := by
  induction bs with
  | nil => rfl
  | cons b bs ih =>
    have hb := b.isLt
    simp only [List.length_cons, leBytes, leNat]
    congr 1
    · apply BitVec.eq_of_toNat_eq
      simp only [BitVec.toNat_ofNat]
      omega
    · rw [show (b.toNat + 256 * leNat bs) / 256 = leNat bs by omega, ih]

theorem decodeColors_encodeColors (cs : List Color) : decodeColors (encodeColors cs) = .ok cs := by
  induction cs with
  | nil => rfl
  | cons c cs ih => simp [encodeColors, decodeColors, ih]

/-- The colours of a WRITE have one spelling. -/
theorem encodeColors_of_decodeColors : ∀ (bs : List Byte) (cs : List Color), decodeColors bs = .ok cs →
    encodeColors cs = bs
  | [], cs, h => by simp [decodeColors] at h
  | m :: rest, cs, h => by
    unfold decodeColors at h
    split at h
    · rename_i hm
      split at h
      · rename_i hr; cases h; simp [encodeColors, hm, hr]
      · cases h
    · split at h
      · rename_i hm
        split at h
        · rename_i b g r tail
          split at h
          · rename_i cs' hcs
            cases h
            simp [encodeColors, hm, encodeColors_of_decodeColors tail cs' hcs]
          · cases h
        · cases h
      · cases h

theorem length_encodeColors (cs : List Color) : (encodeColors cs).length = 1 + 4 * cs.length := by
  induction cs with
  | nil => rfl
  | cons c cs ih => simp only [encodeColors, List.length_cons, ih]; omega

theorem decodeSelector_ok {b : Byte} {x : Bool} (h : decodeSelector b = .ok x) : b = if x then 1 else 0 := by
  unfold decodeSelector at h
  split at h
  · cases h; simpa
  · split at h
    · cases h; simpa
    · cases h

/-- The one width a decoded CONSTRUCT has: its `cal` is of `W_CAL` bits (40_host_operations.md R90). -/
theorem cal_lt_of_decode {wCal : Nat} {w : OpWord} {cal : Nat} (h : decode wCal w = .ok (.construct cal)) :
    cal < 2 ^ wCal := by
  obtain ⟨fmt, bs⟩ := w
  cases fmt <;> simp only [decode] at h
  case hostop =>
    unfold decodeHostop at h
    repeat' split at h
    all_goals first | (cases h; assumption) | cases h
  case colorRgb => unfold decodeColorRgb at h; split at h <;> cases h
  case byte8 => unfold decodeByte8 at h; split at h <;> cases h
  case symbol =>
    unfold decodeSymbol at h
    split at h
    · split at h
      · split at h <;> cases h
      · cases h
    · cases h
  case gap => unfold decodeGap at h; split at h <;> cases h
  case pinop =>
    unfold decodePinop at h
    split at h
    · split at h
      · split at h <;> cases h
      · cases h
    · cases h
  case delayop =>
    unfold decodeDelayop at h
    split at h
    · split at h <;> cases h
    · cases h

end Sys2Proof
end

