-- ==== Sys2Proof/Laws/State.lean ====
section
/-! SUPPORT. One lemma per field per update of State, true by rfl, so that no later proof unfolds a record update. -/

namespace Sys2Proof.Machine

variable (s : State)

@[simp] theorem State.clearFault_cal : (s.clearFault).cal = s.cal := rfl
@[simp] theorem State.clearFault_line : (s.clearFault).line = s.line := rfl
@[simp] theorem State.clearFault_mode : (s.clearFault).mode = s.mode := rfl
@[simp] theorem State.clearFault_seq : (s.clearFault).seq = s.seq := rfl
@[simp] theorem State.clearFault_fault : (s.clearFault).fault = false := rfl
@[simp] theorem State.clearFault_dcnt : (s.clearFault).dcnt = s.dcnt := rfl
@[simp] theorem State.clearFault_shreg : (s.clearFault).shreg = s.shreg := rfl
@[simp] theorem State.clearFault_rst : (s.clearFault).rst = s.rst := rfl
@[simp] theorem State.clearFault_len : (s.clearFault).len = s.len := rfl
@[simp] theorem State.clearFault_colors : (s.clearFault).colors = s.colors := rfl
@[simp] theorem State.clearFault_trace : (s.clearFault).trace = s.trace := rfl
@[simp] theorem State.clearFault_results : (s.clearFault).results = s.results := rfl
@[simp] theorem State.clearFault_pending : (s.clearFault).pending = s.pending := rfl
@[simp] theorem State.clearFault_answers : (s.clearFault).answers = s.answers := rfl
@[simp] theorem State.clearFault_draws : (s.clearFault).draws = s.draws := rfl
@[simp] theorem State.clearFault_rstIn : (s.clearFault).rstIn = s.rstIn := rfl
@[simp] theorem State.clearFault_calInit : (s.clearFault).calInit = s.calInit := rfl
@[simp] theorem State.clearFault_cfg : (s.clearFault).cfg = s.cfg := rfl

@[simp] theorem State.setFault_cal : (s.setFault).cal = s.cal := rfl
@[simp] theorem State.setFault_line : (s.setFault).line = s.line := rfl
@[simp] theorem State.setFault_mode : (s.setFault).mode = s.mode := rfl
@[simp] theorem State.setFault_seq : (s.setFault).seq = s.seq := rfl
@[simp] theorem State.setFault_fault : (s.setFault).fault = true := rfl
@[simp] theorem State.setFault_dcnt : (s.setFault).dcnt = s.dcnt := rfl
@[simp] theorem State.setFault_shreg : (s.setFault).shreg = s.shreg := rfl
@[simp] theorem State.setFault_rst : (s.setFault).rst = s.rst := rfl
@[simp] theorem State.setFault_len : (s.setFault).len = s.len := rfl
@[simp] theorem State.setFault_colors : (s.setFault).colors = s.colors := rfl
@[simp] theorem State.setFault_trace : (s.setFault).trace = s.trace := rfl
@[simp] theorem State.setFault_results : (s.setFault).results = s.results := rfl
@[simp] theorem State.setFault_pending : (s.setFault).pending = s.pending := rfl
@[simp] theorem State.setFault_answers : (s.setFault).answers = s.answers := rfl
@[simp] theorem State.setFault_draws : (s.setFault).draws = s.draws := rfl
@[simp] theorem State.setFault_rstIn : (s.setFault).rstIn = s.rstIn := rfl
@[simp] theorem State.setFault_calInit : (s.setFault).calInit = s.calInit := rfl
@[simp] theorem State.setFault_cfg : (s.setFault).cfg = s.cfg := rfl

@[simp] theorem State.consume_cal (n : Nat) : (s.consume n).cal = s.cal := rfl
@[simp] theorem State.consume_line (n : Nat) : (s.consume n).line = s.line := rfl
@[simp] theorem State.consume_mode (n : Nat) : (s.consume n).mode = s.mode := rfl
@[simp] theorem State.consume_seq (n : Nat) : (s.consume n).seq = s.seq := rfl
@[simp] theorem State.consume_fault (n : Nat) : (s.consume n).fault = s.fault := rfl
@[simp] theorem State.consume_dcnt (n : Nat) : (s.consume n).dcnt = s.dcnt := rfl
@[simp] theorem State.consume_shreg (n : Nat) : (s.consume n).shreg = s.shreg := rfl
@[simp] theorem State.consume_rst (n : Nat) : (s.consume n).rst = s.rst := rfl
@[simp] theorem State.consume_len (n : Nat) : (s.consume n).len = s.len := rfl
@[simp] theorem State.consume_colors (n : Nat) : (s.consume n).colors = s.colors := rfl
@[simp] theorem State.consume_trace (n : Nat) : (s.consume n).trace = s.trace := rfl
@[simp] theorem State.consume_results (n : Nat) : (s.consume n).results = s.results := rfl
@[simp] theorem State.consume_pending (n : Nat) : (s.consume n).pending = s.pending := rfl
@[simp] theorem State.consume_answers (n : Nat) : (s.consume n).answers = s.answers.drop n := rfl
@[simp] theorem State.consume_draws (n : Nat) : (s.consume n).draws = s.draws + (n - s.answers.length) := rfl
@[simp] theorem State.consume_rstIn (n : Nat) : (s.consume n).rstIn = s.rstIn := rfl
@[simp] theorem State.consume_calInit (n : Nat) : (s.consume n).calInit = s.calInit := rfl
@[simp] theorem State.consume_cfg (n : Nat) : (s.consume n).cfg = s.cfg := rfl

@[simp] theorem delayFor_cal (n : Nat) : (delayFor n s).cal = s.cal := rfl
@[simp] theorem delayFor_line (n : Nat) : (delayFor n s).line = s.line := rfl
@[simp] theorem delayFor_mode (n : Nat) : (delayFor n s).mode = s.mode := rfl
@[simp] theorem delayFor_seq (n : Nat) : (delayFor n s).seq = s.seq := rfl
@[simp] theorem delayFor_fault (n : Nat) : (delayFor n s).fault = s.fault := rfl
@[simp] theorem delayFor_dcnt (n : Nat) : (delayFor n s).dcnt = none := rfl
@[simp] theorem delayFor_shreg (n : Nat) : (delayFor n s).shreg = s.shreg := rfl
@[simp] theorem delayFor_rst (n : Nat) : (delayFor n s).rst = s.rst := rfl
@[simp] theorem delayFor_len (n : Nat) : (delayFor n s).len = s.len := rfl
@[simp] theorem delayFor_colors (n : Nat) : (delayFor n s).colors = s.colors := rfl
@[simp] theorem delayFor_trace (n : Nat) : (delayFor n s).trace = s.trace ++ [.delay n] := rfl
@[simp] theorem delayFor_results (n : Nat) : (delayFor n s).results = s.results := rfl
@[simp] theorem delayFor_pending (n : Nat) : (delayFor n s).pending = s.pending := rfl
@[simp] theorem delayFor_answers (n : Nat) : (delayFor n s).answers = s.answers := rfl
@[simp] theorem delayFor_draws (n : Nat) : (delayFor n s).draws = s.draws := rfl
@[simp] theorem delayFor_rstIn (n : Nat) : (delayFor n s).rstIn = s.rstIn := rfl
@[simp] theorem delayFor_calInit (n : Nat) : (delayFor n s).calInit = s.calInit := rfl
@[simp] theorem delayFor_cfg (n : Nat) : (delayFor n s).cfg = s.cfg := rfl

@[simp] theorem State.endWrite_cal : (s.endWrite).cal = s.cal := rfl
@[simp] theorem State.endWrite_line : (s.endWrite).line = s.line := rfl
@[simp] theorem State.endWrite_mode : (s.endWrite).mode = s.mode := rfl
@[simp] theorem State.endWrite_seq : (s.endWrite).seq = none := rfl
@[simp] theorem State.endWrite_fault : (s.endWrite).fault = s.fault := rfl
@[simp] theorem State.endWrite_dcnt : (s.endWrite).dcnt = none := rfl
@[simp] theorem State.endWrite_shreg : (s.endWrite).shreg = none := rfl
@[simp] theorem State.endWrite_rst : (s.endWrite).rst = s.rst := rfl
@[simp] theorem State.endWrite_len : (s.endWrite).len = 0 := rfl
@[simp] theorem State.endWrite_colors : (s.endWrite).colors = [] := rfl
@[simp] theorem State.endWrite_trace : (s.endWrite).trace = s.trace := rfl
@[simp] theorem State.endWrite_results : (s.endWrite).results = s.results := rfl
@[simp] theorem State.endWrite_pending : (s.endWrite).pending = s.pending := rfl
@[simp] theorem State.endWrite_answers : (s.endWrite).answers = s.answers := rfl
@[simp] theorem State.endWrite_draws : (s.endWrite).draws = s.draws := rfl
@[simp] theorem State.endWrite_rstIn : (s.endWrite).rstIn = s.rstIn := rfl
@[simp] theorem State.endWrite_calInit : (s.endWrite).calInit = s.calInit := rfl
@[simp] theorem State.endWrite_cfg : (s.endWrite).cfg = s.cfg := rfl

@[simp] theorem State.startWrite_cal (n : Nat) (cs : List Color) : (s.startWrite n cs).cal = s.cal := rfl
@[simp] theorem State.startWrite_line (n : Nat) (cs : List Color) : (s.startWrite n cs).line = s.line := rfl
@[simp] theorem State.startWrite_mode (n : Nat) (cs : List Color) : (s.startWrite n cs).mode = .transmitting := rfl
@[simp] theorem State.startWrite_seq (n : Nat) (cs : List Color) : (s.startWrite n cs).seq = some (startPos s.cfg n) := rfl
@[simp] theorem State.startWrite_fault (n : Nat) (cs : List Color) : (s.startWrite n cs).fault = false := rfl
@[simp] theorem State.startWrite_dcnt (n : Nat) (cs : List Color) : (s.startWrite n cs).dcnt = s.dcnt := rfl
@[simp] theorem State.startWrite_shreg (n : Nat) (cs : List Color) : (s.startWrite n cs).shreg = s.shreg := rfl
@[simp] theorem State.startWrite_rst (n : Nat) (cs : List Color) : (s.startWrite n cs).rst = s.rst := rfl
@[simp] theorem State.startWrite_len (n : Nat) (cs : List Color) : (s.startWrite n cs).len = n := rfl
@[simp] theorem State.startWrite_colors (n : Nat) (cs : List Color) : (s.startWrite n cs).colors = cs := rfl
@[simp] theorem State.startWrite_trace (n : Nat) (cs : List Color) : (s.startWrite n cs).trace = s.trace := rfl
@[simp] theorem State.startWrite_results (n : Nat) (cs : List Color) : (s.startWrite n cs).results = s.results := rfl
@[simp] theorem State.startWrite_pending (n : Nat) (cs : List Color) : (s.startWrite n cs).pending = s.pending := rfl
@[simp] theorem State.startWrite_answers (n : Nat) (cs : List Color) : (s.startWrite n cs).answers = s.answers := rfl
@[simp] theorem State.startWrite_draws (n : Nat) (cs : List Color) : (s.startWrite n cs).draws = s.draws := rfl
@[simp] theorem State.startWrite_rstIn (n : Nat) (cs : List Color) : (s.startWrite n cs).rstIn = s.rstIn := rfl
@[simp] theorem State.startWrite_calInit (n : Nat) (cs : List Color) : (s.startWrite n cs).calInit = s.calInit := rfl
@[simp] theorem State.startWrite_cfg (n : Nat) (cs : List Color) : (s.startWrite n cs).cfg = s.cfg := rfl

@[simp] theorem State.raisePinFault_cal : (s.raisePinFault).cal = s.cal := rfl
@[simp] theorem State.raisePinFault_line : (s.raisePinFault).line = .unknown := rfl
@[simp] theorem State.raisePinFault_mode : (s.raisePinFault).mode = .idle := rfl
@[simp] theorem State.raisePinFault_seq : (s.raisePinFault).seq = none := rfl
@[simp] theorem State.raisePinFault_fault : (s.raisePinFault).fault = true := rfl
@[simp] theorem State.raisePinFault_dcnt : (s.raisePinFault).dcnt = none := rfl
@[simp] theorem State.raisePinFault_shreg : (s.raisePinFault).shreg = none := rfl
@[simp] theorem State.raisePinFault_rst : (s.raisePinFault).rst = s.rst := rfl
@[simp] theorem State.raisePinFault_len : (s.raisePinFault).len = 0 := rfl
@[simp] theorem State.raisePinFault_colors : (s.raisePinFault).colors = [] := rfl
@[simp] theorem State.raisePinFault_trace : (s.raisePinFault).trace = s.trace := rfl
@[simp] theorem State.raisePinFault_results : (s.raisePinFault).results = s.results ++ [.pinFault] := rfl
@[simp] theorem State.raisePinFault_pending : (s.raisePinFault).pending = s.pending := rfl
@[simp] theorem State.raisePinFault_answers : (s.raisePinFault).answers = s.answers := rfl
@[simp] theorem State.raisePinFault_draws : (s.raisePinFault).draws = s.draws := rfl
@[simp] theorem State.raisePinFault_rstIn : (s.raisePinFault).rstIn = s.rstIn := rfl
@[simp] theorem State.raisePinFault_calInit : (s.raisePinFault).calInit = s.calInit := rfl
@[simp] theorem State.raisePinFault_cfg : (s.raisePinFault).cfg = s.cfg := rfl

@[simp] theorem State.completeWrite_cal : (s.completeWrite).cal = s.cal.map (nextCal s.cfg) := rfl
@[simp] theorem State.completeWrite_line : (s.completeWrite).line = s.line := rfl
@[simp] theorem State.completeWrite_mode : (s.completeWrite).mode = .idle := rfl
@[simp] theorem State.completeWrite_seq : (s.completeWrite).seq = none := rfl
@[simp] theorem State.completeWrite_fault : (s.completeWrite).fault = s.fault := rfl
@[simp] theorem State.completeWrite_dcnt : (s.completeWrite).dcnt = none := rfl
@[simp] theorem State.completeWrite_shreg : (s.completeWrite).shreg = none := rfl
@[simp] theorem State.completeWrite_rst : (s.completeWrite).rst = s.rst := rfl
@[simp] theorem State.completeWrite_len : (s.completeWrite).len = 0 := rfl
@[simp] theorem State.completeWrite_colors : (s.completeWrite).colors = [] := rfl
@[simp] theorem State.completeWrite_trace : (s.completeWrite).trace = s.trace := rfl
@[simp] theorem State.completeWrite_results : (s.completeWrite).results = s.results ++ [.ok] := rfl
@[simp] theorem State.completeWrite_pending : (s.completeWrite).pending = s.pending := rfl
@[simp] theorem State.completeWrite_answers : (s.completeWrite).answers = s.answers := rfl
@[simp] theorem State.completeWrite_draws : (s.completeWrite).draws = s.draws := rfl
@[simp] theorem State.completeWrite_rstIn : (s.completeWrite).rstIn = s.rstIn := rfl
@[simp] theorem State.completeWrite_calInit : (s.completeWrite).calInit = s.calInit := rfl
@[simp] theorem State.completeWrite_cfg : (s.completeWrite).cfg = s.cfg := rfl

@[simp] theorem State.assertReset_cal : (s.assertReset).cal = none := rfl
@[simp] theorem State.assertReset_line : (s.assertReset).line = .unknown := rfl
@[simp] theorem State.assertReset_mode : (s.assertReset).mode = .absent := rfl
@[simp] theorem State.assertReset_seq : (s.assertReset).seq = none := rfl
@[simp] theorem State.assertReset_fault : (s.assertReset).fault = Config.freeFault s.draws := rfl
@[simp] theorem State.assertReset_dcnt : (s.assertReset).dcnt = none := rfl
@[simp] theorem State.assertReset_shreg : (s.assertReset).shreg = none := rfl
@[simp] theorem State.assertReset_rst : (s.assertReset).rst = true := rfl
@[simp] theorem State.assertReset_len : (s.assertReset).len = 0 := rfl
@[simp] theorem State.assertReset_colors : (s.assertReset).colors = [] := rfl
@[simp] theorem State.assertReset_trace : (s.assertReset).trace = s.trace := rfl
@[simp] theorem State.assertReset_results : (s.assertReset).results = s.results := rfl
@[simp] theorem State.assertReset_pending : (s.assertReset).pending = s.pending := rfl
@[simp] theorem State.assertReset_answers : (s.assertReset).answers = s.answers := rfl
@[simp] theorem State.assertReset_draws : (s.assertReset).draws = s.draws + 1 := rfl
@[simp] theorem State.assertReset_rstIn : (s.assertReset).rstIn = s.rstIn := rfl
@[simp] theorem State.assertReset_calInit : (s.assertReset).calInit = s.calInit := rfl
@[simp] theorem State.assertReset_cfg : (s.assertReset).cfg = s.cfg := rfl

@[simp] theorem State.popRst_cal : (s.popRst).cal = s.cal := rfl
@[simp] theorem State.popRst_line : (s.popRst).line = s.line := rfl
@[simp] theorem State.popRst_mode : (s.popRst).mode = s.mode := rfl
@[simp] theorem State.popRst_seq : (s.popRst).seq = s.seq := rfl
@[simp] theorem State.popRst_fault : (s.popRst).fault = s.fault := rfl
@[simp] theorem State.popRst_dcnt : (s.popRst).dcnt = s.dcnt := rfl
@[simp] theorem State.popRst_shreg : (s.popRst).shreg = s.shreg := rfl
@[simp] theorem State.popRst_rst : (s.popRst).rst = s.rst := rfl
@[simp] theorem State.popRst_len : (s.popRst).len = s.len := rfl
@[simp] theorem State.popRst_colors : (s.popRst).colors = s.colors := rfl
@[simp] theorem State.popRst_trace : (s.popRst).trace = s.trace := rfl
@[simp] theorem State.popRst_results : (s.popRst).results = s.results := rfl
@[simp] theorem State.popRst_pending : (s.popRst).pending = s.pending := rfl
@[simp] theorem State.popRst_answers : (s.popRst).answers = s.answers := rfl
@[simp] theorem State.popRst_draws : (s.popRst).draws = s.draws := rfl
@[simp] theorem State.popRst_rstIn : (s.popRst).rstIn = s.rstIn.tail := rfl
@[simp] theorem State.popRst_calInit : (s.popRst).calInit = s.calInit := rfl
@[simp] theorem State.popRst_cfg : (s.popRst).cfg = s.cfg := rfl

@[simp] theorem State.answered_cal (l : Level) (a : Answer) : (s.answered l a).cal = s.cal := rfl
@[simp] theorem State.answered_ok_line (l : Level) : (s.answered l .ok).line = l.toLine := rfl
@[simp] theorem State.answered_fault_line (l : Level) : (s.answered l .fault).line = .unknown := rfl
@[simp] theorem State.answered_mode (l : Level) (a : Answer) : (s.answered l a).mode = s.mode := rfl
@[simp] theorem State.answered_seq (l : Level) (a : Answer) : (s.answered l a).seq = s.seq := rfl
@[simp] theorem State.answered_fault (l : Level) (a : Answer) : (s.answered l a).fault = s.fault := rfl
@[simp] theorem State.answered_dcnt (l : Level) (a : Answer) : (s.answered l a).dcnt = s.dcnt := rfl
@[simp] theorem State.answered_shreg (l : Level) (a : Answer) : (s.answered l a).shreg = s.shreg := rfl
@[simp] theorem State.answered_rst (l : Level) (a : Answer) : (s.answered l a).rst = s.rst := rfl
@[simp] theorem State.answered_len (l : Level) (a : Answer) : (s.answered l a).len = s.len := rfl
@[simp] theorem State.answered_colors (l : Level) (a : Answer) : (s.answered l a).colors = s.colors := rfl
@[simp] theorem State.answered_trace (l : Level) (a : Answer) : (s.answered l a).trace = s.trace ++ [.set l a] := rfl
@[simp] theorem State.answered_results (l : Level) (a : Answer) : (s.answered l a).results = s.results := rfl
@[simp] theorem State.answered_pending (l : Level) (a : Answer) : (s.answered l a).pending = s.pending := rfl
@[simp] theorem State.answered_answers (l : Level) (a : Answer) : (s.answered l a).answers = s.answers := rfl
@[simp] theorem State.answered_draws (l : Level) (a : Answer) : (s.answered l a).draws = s.draws := rfl
@[simp] theorem State.answered_rstIn (l : Level) (a : Answer) : (s.answered l a).rstIn = s.rstIn := rfl
@[simp] theorem State.answered_calInit (l : Level) (a : Answer) : (s.answered l a).calInit = s.calInit := rfl
@[simp] theorem State.answered_cfg (l : Level) (a : Answer) : (s.answered l a).cfg = s.cfg := rfl

end Sys2Proof.Machine
end

