-- ==== Sys2Proof/Laws/Ops.lean ====
section
/-! SUPPORT. What each shared operation can do, said once: PIN's answers, a transition, a symbol, a run of symbols, and
the premises in which claims speak of answers and of resets. -/

namespace Sys2Proof.Machine

@[simp] theorem consume_zero (s : State) : s.consume 0 = s := by
  simp [State.consume]

theorem consume_consume (s : State) (m n : Nat) : (s.consume m).consume n = s.consume (m + n) := by
  simp only [State.consume, List.drop_drop, List.length_drop]
  congr 1
  omega

theorem answerAt_consume (s : State) (n k : Nat) : (s.consume n).answerAt k = s.answerAt (n + k) := by
  unfold State.answerAt State.consume
  simp only [List.getElem?_drop, List.length_drop]
  cases h : s.answers[n + k]? with
  | some a => rfl
  | none =>
    have hlen := List.getElem?_eq_none_iff.mp h
    have : s.draws + (n - s.answers.length) + (k - (s.answers.length - n)) = s.draws + (n + k - s.answers.length) := by
      omega
    simp [this]

/-- PIN's answers depend on the two fields that hold them alone. -/
theorem answerAt_congr {s t : State} (h : t.answers = s.answers) (hd : t.draws = s.draws) (k : Nat) :
    t.answerAt k = s.answerAt k := by
  simp only [State.answerAt, h, hd]

@[simp] theorem answerAt_answered (s : State) (l : Level) (a : Answer) (k : Nat) :
    (s.answered l a).answerAt k = s.answerAt k := rfl

@[simp] theorem answerAt_delayFor (s : State) (n k : Nat) : (delayFor n s).answerAt k = s.answerAt k := rfl

@[simp] theorem answerAt_startWrite (s : State) (n : Nat) (cs : List Color) (k : Nat) :
    (s.startWrite n cs).answerAt k = s.answerAt k := rfl

/-- A transition, by its answer. -/
theorem pinSet_eq (l : Level) (s : State) :
    pinSet l s = ((s.consume 1).answered l (s.answerAt 0), s.answerAt 0) := rfl

theorem allOk_mono {m n : Nat} {s : State} (hmn : m ≤ n) (h : AllOk n s) : AllOk m s :=
  fun k hk => h k (Nat.lt_of_lt_of_le hk hmn)

theorem allOk_consume {m n : Nat} {s : State} (h : AllOk (m + n) s) : AllOk n (s.consume m) := by
  intro k hk
  rw [answerAt_consume]
  exact h _ (by omega)

theorem allOk_congr {s t : State} {n : Nat} (h : t.answers = s.answers) (hd : t.draws = s.draws) :
    AllOk n t ↔ AllOk n s := by
  simp only [AllOk, answerAt_congr h hd]

@[simp] theorem andThen_ok (s : State) (f : State → State × Answer) : andThen (s, .ok) f = f s := rfl

@[simp] theorem andThen_fault (s : State) (f : State → State × Answer) : andThen (s, .fault) f = (s, .fault) := rfl

@[simp] theorem settle_ok (s : State) : settle (s, .ok) = s := rfl

@[simp] theorem settle_fault (s : State) : settle (s, .fault) = s.raisePinFault := rfl

/-- The state a run of symbols answered ok leaves: the line Low, the events appended. -/
def State.sent (s : State) (n : Nat) (events : List Event) : State :=
  { s.consume n with line := .low, dcnt := none, trace := s.trace ++ events }

/-- Every case of a symbol: both transitions answered ok, or the first or the second answered fault. -/
theorem sendBit_cases (c : Nat) (bit : Bool) (s : State) :
    (AllOk 2 s ∧ sendBit c bit s = (s.sent 2 (symbolEvents s.cfg c bit), .ok)) ∨
    (s.answerAt 0 = .fault ∧ sendBit c bit s = ((s.consume 1).answered .high .fault, .fault)) ∨
    (s.answerAt 0 = .ok ∧ s.answerAt 1 = .fault ∧
      sendBit c bit s =
        (((delayFor (hiCycles s.cfg c bit) ((s.consume 1).answered .high .ok)).consume 1).answered .low .fault,
          .fault)) := by
  cases h0 : s.answerAt 0 with
  | fault =>
    refine .inr (.inl ⟨rfl, ?_⟩)
    simp [sendBit, pinSet_eq, h0]
  | ok =>
    cases h1 : s.answerAt 1 with
    | fault =>
      refine .inr (.inr ⟨rfl, rfl, ?_⟩)
      simp [sendBit, pinSet_eq, h0, answerAt_consume, h1]
    | ok =>
      refine .inl ⟨?_, ?_⟩
      · intro k hk
        match k, hk with
        | 0, _ => exact h0
        | 1, _ => exact h1
      · simp only [sendBit, pinSet_eq, h0, andThen_ok, answerAt_answered, answerAt_delayFor, answerAt_consume, h1]
        simp [State.sent, State.consume, State.answered, delayFor, symbolEvents, Level.toLine]
        omega

theorem sent_sent (s : State) (m n : Nat) (es fs : List Event) :
    (s.sent m es).sent n fs = s.sent (m + n) (es ++ fs) := by
  have h := consume_consume s m n
  simp only [State.sent, State.consume, State.mk.injEq, List.append_assoc] at h ⊢
  simp_all

/-- Symbols whose transitions are all answered ok. -/
theorem sendBits_ok (c : Nat) (bit : Bool) (bits : List Bool) (s : State)
    (h : AllOk (2 * (bits.length + 1)) s) :
    sendBits c (bit :: bits) s =
      (s.sent (2 * (bits.length + 1)) ((bit :: bits).flatMap (symbolEvents s.cfg c)), .ok) := by
  induction bits generalizing bit s with
  | nil =>
    obtain ⟨_, hs⟩ | ⟨h0, _⟩ | ⟨_, h1, _⟩ := sendBit_cases c bit s
    · simp [sendBits, hs]
    · simp [h 0 (by simp)] at h0
    · simp [h 1 (by simp)] at h1
  | cons b bs ih =>
    have hlen : 2 * ((b :: bs).length + 1) = 2 + 2 * (bs.length + 1) := by simp; omega
    rw [hlen] at h ⊢
    obtain ⟨_, hs⟩ | ⟨h0, _⟩ | ⟨_, h1, _⟩ := sendBit_cases c bit s
    · have hok : AllOk (2 * (bs.length + 1)) (s.sent 2 (symbolEvents s.cfg c bit)) :=
        (allOk_congr (s := s.consume 2) rfl rfl).mpr (allOk_consume h)
      rw [sendBits, hs, andThen_ok, ih b _ hok, sent_sent, List.flatMap_cons]
      rfl
    · simp [h 0 (by omega)] at h0
    · simp [h 1 (by omega)] at h1

end Sys2Proof.Machine
end

