-- ==== Sys2Proof/Laws/Step.lean ====
section
/-! SUPPORT. What one step can do, said once: inversion of step, of the sequencer's table, and of the host operations;
and how steps compose. -/

namespace Sys2Proof.Machine

@[simp] theorem Channel.slot_green : Channel.green.slot = 0 := rfl
@[simp] theorem Channel.slot_red : Channel.red.slot = 1 := rfl
@[simp] theorem Channel.slot_blue : Channel.blue.slot = 2 := rfl

theorem runSteps_zero (s : State) : runSteps 0 s = .next s := rfl

theorem core_run_succ (M : Host.Core) (n : Nat) (s t : M.State) (h : M.step s = .next t) :
    M.run (n + 1) s = M.run n t := by
  simp only [Host.Core.run, h]

theorem runSteps_succ {s t : State} (n : Nat) (h : step s = .next t) : runSteps (n + 1) s = runSteps n t :=
  core_run_succ Sys2Proof.core n s t h

theorem core_run_add (M : Host.Core) (m n : Nat) (s t : M.State) (h : M.run m s = .next t) :
    M.run (m + n) s = M.run n t := by
  induction m generalizing s with
  | zero => simp only [Host.Core.run, Host.Outcome.next.injEq] at h; rw [h, Nat.zero_add]
  | succ m ih =>
    rw [Nat.succ_add]
    simp only [Host.Core.run] at h ⊢
    split at h
    · rename_i u hu; exact ih u h
    · cases h
    · cases h

theorem runSteps_add {s t : State} {m : Nat} (n : Nat) (h : runSteps m s = .next t) :
    runSteps (m + n) s = runSteps n t :=
  core_run_add Sys2Proof.core m n s t h

theorem noReset_now {n : Nat} {s : State} (h : NoReset (n + 1) s) : s.rstNow = false := by
  unfold State.rstNow
  cases hr : s.rstIn with
  | nil => rfl
  | cons b bs => exact h.2 b (by simp [hr])

theorem noReset_mono {m n : Nat} {s : State} (hmn : m ≤ n) (h : NoReset n s) : NoReset m s :=
  ⟨h.1, fun b hb => h.2 b (List.take_subset_take_left _ hmn hb)⟩

/-- With no reset, a step is the step of ENC or of HOST. -/
theorem step_eq_running {s : State} (h : NoReset 1 s) : step s = stepRunning s.popRst := by
  simp only [step, noReset_now h, h.1]

theorem position_eq_some {s : State} {p : Pos} :
    s.position = some p ↔ s.mode = .transmitting ∧ s.seq = some p := by
  unfold State.position
  cases s.mode <;> simp

/-- With no reset, a step of a running WRITE is the row of its position. -/
theorem step_eq_sequencerStep {s : State} {p : Pos} (h : NoReset 1 s) (hm : s.mode = .transmitting)
    (hs : s.seq = some p) : step s = sequencerStep p s.popRst := by
  have hp : s.popRst.position = some p := position_eq_some.mpr ⟨hm, hs⟩
  rw [step_eq_running h]
  simp only [stepRunning, hp]

/-- Everything a step that answers a next state can have done. -/
theorem step_next {s t : State} (h : step s = .next t) :
    (s.rstNow = true ∧ t = s.popRst.assertReset) ∨
    (s.rstNow = false ∧ s.rst = true ∧ exec (.construct s.calInit) { s.popRst with rst := false } = .next t) ∨
    (s.rstNow = false ∧ s.rst = false ∧
      ((∃ p, s.mode = .transmitting ∧ s.seq = some p ∧ sequencerStep p s.popRst = .next t) ∨
        (s.position = none ∧ s.pending = [] ∧ t = s.popRst) ∨
        (∃ w rest i, s.position = none ∧ s.pending = w :: rest ∧ decode s.cfg.params.wCal w = .ok i ∧ mayIssue i s.mode = true ∧
          exec i { s.popRst with pending := rest } = .next t))) := by
  unfold step at h
  split at h
  · rename_i h1; cases h; exact .inl ⟨h1, rfl⟩
  · rename_i h1 h2; exact .inr (.inl ⟨h1, h2, h⟩)
  · rename_i h1 h2
    refine .inr (.inr ⟨h1, h2, ?_⟩)
    have hpos : s.popRst.position = s.position := rfl
    unfold stepRunning at h
    rw [hpos] at h
    split at h
    · rename_i p hp
      obtain ⟨hm, hs⟩ := position_eq_some.mp hp
      exact .inl ⟨p, hm, hs, h⟩
    · rename_i hp
      refine .inr ?_
      split at h
      · rename_i hq; cases h; exact .inl ⟨hp, hq, rfl⟩
      · rename_i w rest hq
        split at h
        · cases h
        · rename_i i hd
          split at h
          · rename_i hmay; exact .inr ⟨w, rest, i, hp, hq, hd, hmay, h⟩
          · cases h

/-- Everything a row of the sequencer's table that answers a next state can have done. -/
theorem sequencerStep_next {p : Pos} {s t : State} (h : sequencerStep p s = .next t) :
    (∃ l q u, p.transition = some (l, q) ∧ loadColor p s = .ok u ∧
      ((u.answerAt 0 = .ok ∧ t = { (u.consume 1).answered l .ok with seq := some q }) ∨
        (u.answerAt 0 = .fault ∧ t = ((u.consume 1).answered l .fault).raisePinFault))) ∨
    (p.transition = none ∧ ∃ n, delayArgument p s = .ok n ∧ t = afterDelay p (delayFor n s)) := by
  unfold sequencerStep at h
  split at h
  · rename_i l q hq
    split at h
    · rename_i u hu
      refine .inl ⟨l, q, u, hq, hu, ?_⟩
      simp only [afterTransition, pinSet_eq] at h
      cases ha : u.answerAt 0 <;> rw [ha] at h <;> cases h
      · exact .inl ⟨rfl, rfl⟩
      · exact .inr ⟨rfl, rfl⟩
    · cases h
  · rename_i hq
    split at h
    · rename_i n hn; cases h; exact .inr ⟨hq, n, hn, rfl⟩
    · cases h

/-- Reading a colour writes SHREG alone, and only at the position that reads one. -/
theorem loadColor_ok {p : Pos} {s u : State} (h : loadColor p s = .ok u) :
    (p.readsColor = none ∧ u = s) ∨
    (∃ i col, p.readsColor = some i ∧ memRead i s = some col ∧ u = { s with shreg := some (wireWord col) }) := by
  unfold loadColor at h
  split at h
  · rename_i hp; cases h; exact .inl ⟨hp, rfl⟩
  · rename_i i hp
    split at h
    · rename_i c hc; cases h; exact .inr ⟨i, c, hp, hc, rfl⟩
    · cases h

/-- Reading a colour writes SHREG alone. -/
theorem loadColor_writes_shreg {p : Pos} {s u : State} (h : loadColor p s = .ok u) :
    ∃ x, u = { s with shreg := x } := by
  obtain ⟨_, rfl⟩ | ⟨_, _, _, _, rfl⟩ := loadColor_ok h
  · exact ⟨u.shreg, rfl⟩
  · exact ⟨_, rfl⟩

theorem readsColor_eq_none (i : Nat) (ch : Channel) (k : Fin 8) {stg : BitStage} (h : stg ≠ .setHigh) :
    (Pos.bit i ch k stg).readsColor = none := by
  unfold Pos.readsColor
  split <;> simp_all

theorem readsColor_eq_some {p : Pos} {i : Nat} (h : p.readsColor = some i) : p = .bit i .green 7 .setHigh := by
  unfold Pos.readsColor at h
  split at h <;> simp_all

/-- A transition leaves the level of the position after it (10_state.md R35). -/
theorem transition_level {p q : Pos} {l : Level} (h : p.transition = some (l, q)) : l.toLine = q.level := by
  cases p with
  | bit i ch k stg => cases stg <;> simp [Pos.transition] at h <;> (obtain ⟨rfl, rfl⟩ := h; rfl)
  | gap stg => cases stg <;> simp [Pos.transition] at h; obtain ⟨rfl, rfl⟩ := h; rfl

/-- CONSTRUCT answers a next state in Absent alone. -/
theorem execConstruct_next {cal : Nat} {s t : State} (h : exec (.construct cal) s = .next t) :
    s.mode = .absent ∧ t = (s.consume 1).constructed cal (s.answerAt 0) := by
  simp only [exec, execConstruct] at h
  split at h
  · rename_i hm; cases h; exact ⟨hm, rfl⟩
  · cases h
  · cases h

theorem execConstruct_absent {cal : Nat} {s : State} (hm : s.mode = .absent) :
    exec (.construct cal) s = .next ((s.consume 1).constructed cal (s.answerAt 0)) := by
  simp only [exec, execConstruct]
  rw [hm]

/-- WRITE answers a next state in Idle alone. -/
theorem execWrite_next {cs : List Color} {s t : State} (h : exec (.write cs) s = .next t) :
    s.mode = .idle ∧ t = s.startWrite cs.length cs := by
  simp only [exec, execWrite] at h
  split at h
  · rename_i hm; cases h; exact ⟨hm, rfl⟩
  · cases h
  · cases h

theorem execWrite_idle {cs : List Color} {s : State} (hm : s.mode = .idle) :
    exec (.write cs) s = .next (s.startWrite cs.length cs) := by
  simp only [exec, execWrite]
  rw [hm]

theorem withCal_eq {s : State} {c : Nat} (h : s.cal = some c) (f : Nat → State) :
    withCal s f = .next (f c) := by
  unfold withCal
  rw [h]

/-- The constraints a legal configuration meets (R8, R9, R10). -/
theorem Config.legal_bounds (cfg : Config) :
    1 ≤ cfg.params.sMult ∧ cfg.params.sMult < cfg.params.lMult ∧
      6 * (cfg.params.lMult + cfg.params.sMult) ≤ 10 * cfg.params.lMult ∧ 1 ≤ cfg.params.resetUnits ∧
      cfg.params.lMult ≤ 511 ∧ cfg.params.resetUnits ≤ 511 := by
  have := cfg.legal
  simpa [Params.wf, and_assoc] using this

/-- A multiplier of at most 511 times a value of `W_CAL` bits fits `W_DLY = W_CAL + 9` bits (R10, 41_wire_symbols.md
R116). -/
theorem product_lt_delayWidth {a c w : Nat} (ha : a ≤ 511) (hc : c < 2 ^ w) : a * c < 2 ^ delayWidth w :=
  calc a * c < 2 ^ 9 * 2 ^ w := Nat.mul_lt_mul'' (by omega) hc
    _ = 2 ^ delayWidth w := by rw [← Nat.pow_add, Nat.add_comm, delayWidth]

/-- CAL keeps its width when it steps (40_host_operations.md R98). -/
theorem nextCal_lt (cfg : Config) (c : Nat) : nextCal cfg c < 2 ^ cfg.params.wCal :=
  Nat.mod_lt _ (Nat.two_pow_pos _)

end Sys2Proof.Machine
end

