-- ==== Sys2Proof/Laws/Invariant.lean ====
section
/-! SUPPORT. What a step can do from a state that meets the invariant of the machine. -/

namespace Sys2Proof.Machine

/-- Everything a step can have done from a state that meets the invariant: a reset; CONSTRUCT, by its release or by HOST;
a row of the sequencer's table; nothing; or the start of a WRITE. -/
theorem step_next_of_inv {s t : State} (hi : s.Inv) (h : step s = .next t) :
    (s.rstNow = true ∧ t = s.popRst.assertReset) ∨
    (s.rstNow = false ∧ s.mode = .absent ∧ ∃ cal pend,
      ((s.rst = true ∧ cal = s.calInit) ∨ ∃ w rest, s.pending = w :: rest ∧ decode s.cfg.params.wCal w = .ok (.construct cal)) ∧
        t = (({ s.popRst with rst := false, pending := pend } : State).consume 1).constructed cal (s.answerAt 0)) ∨
    (s.rstNow = false ∧ s.rst = false ∧ s.mode = .transmitting ∧ ∃ p, s.seq = some p ∧
      ((∃ l q u, p.transition = some (l, q) ∧ loadColor p s.popRst = .ok u ∧
        ((s.answerAt 0 = .ok ∧ t = { (u.consume 1).answered l .ok with seq := some q }) ∨
          (s.answerAt 0 = .fault ∧ t = ((u.consume 1).answered l .fault).raisePinFault))) ∨
        (p.transition = none ∧ ∃ n, delayArgument p s = .ok n ∧ t = afterDelay p (delayFor n s.popRst)))) ∨
    (s.rstNow = false ∧ s.rst = false ∧ s.mode ≠ .transmitting ∧ t = s.popRst) ∨
    (s.rstNow = false ∧ s.rst = false ∧ s.mode = .idle ∧ ∃ w rest cs,
      s.pending = w :: rest ∧ decode s.cfg.params.wCal w = .ok (.write cs) ∧
      t = ({ s.popRst with pending := rest } : State).startWrite cs.length cs) := by
  have hnp : s.position = none → s.mode ≠ .transmitting := by
    intro hp hm
    have h1 := hi.seq_transmitting.mpr hm
    obtain ⟨p, hp'⟩ := Option.isSome_iff_exists.mp h1
    rw [position_eq_some.mpr ⟨hm, hp'⟩] at hp
    cases hp
  obtain ⟨h1, h2⟩ | ⟨h1, h2, h3⟩ |
    ⟨h1, h2, ⟨p, hm, hs, hq⟩ | ⟨hp, hq, ht⟩ | ⟨w, rest, i, hp, hq, hd, hmay, he⟩⟩ := step_next h
  · exact .inl ⟨h1, h2⟩
  · obtain ⟨hm, ht⟩ := execConstruct_next h3
    exact .inr (.inl ⟨h1, hm, s.calInit, s.pending, .inl ⟨h2, rfl⟩, ht⟩)
  · refine .inr (.inr (.inl ⟨h1, h2, hm, p, hs, ?_⟩))
    obtain ⟨l, q, u, hpt, hl, ha⟩ | ⟨hpt, n, hn, ht⟩ := sequencerStep_next hq
    · have : u.answerAt 0 = s.answerAt 0 := by
        obtain ⟨x, hx⟩ := loadColor_writes_shreg hl; rw [hx]; rfl
      rw [this] at ha
      exact .inl ⟨l, q, u, hpt, hl, ha⟩
    · exact .inr ⟨hpt, n, hn, ht⟩
  · exact .inr (.inr (.inr (.inl ⟨h1, h2, hnp hp, ht⟩)))
  · have hm := hnp hp
    simp only [mayIssue, hm, decide_false, Bool.or_false, decide_eq_true_eq] at hmay
    rcases i with cal | cs | _ | _ | _ | _ | _ | _ | _ | _ <;> simp [Instr.format] at hmay
    · obtain ⟨hm, ht⟩ := execConstruct_next he
      refine .inr (.inl ⟨h1, hm, cal, rest, .inr ⟨w, rest, hq, hd⟩, ht.trans ?_⟩)
      have : ({ s.popRst with rst := false, pending := rest } : State) = { s.popRst with pending := rest } := by
        simp [State.popRst, h2]
      rw [this]; rfl
    · obtain ⟨hm, ht⟩ := execWrite_next he
      exact .inr (.inr (.inr (.inr ⟨h1, h2, hm, w, rest, _, hq, hd, ht⟩)))

end Sys2Proof.Machine
end

