-- ==== Sys2Proof/Laws/PerInstr.lean ====
section
/-! SUPPORT. Statements about every operation as syntax, one lemma per constructor. -/

namespace Sys2Proof.Laws.WordShape

/-- The word of an operation is in its row's format and has the number of bytes the operation has (log 6). -/
def Statement (i : Instr) : Prop :=
  ∀ wCal : Nat, (encode wCal i).fmt = i.format ∧ (encode wCal i).bytes.length = i.wordLength wCal

theorem construct (cal : Nat) : Statement (.construct cal) :=
  fun _ => ⟨rfl, by simp only [encode, Instr.wordLength, List.length_cons, length_leBytes]; omega⟩

theorem write (cs : List Color) : Statement (.write cs) :=
  fun _ => ⟨rfl, by simp only [encode, Instr.wordLength, List.length_cons, length_encodeColors]; omega⟩

theorem color (r g b : Byte) : Statement (.color r g b) := fun _ => ⟨rfl, rfl⟩

theorem byte (v : Byte) : Statement (.byte v) := fun _ => ⟨rfl, rfl⟩

theorem sym1 : Statement .sym1 := fun _ => ⟨rfl, rfl⟩

theorem sym0 : Statement .sym0 := fun _ => ⟨rfl, rfl⟩

theorem gap : Statement .gap := fun _ => ⟨rfl, rfl⟩

theorem setHigh : Statement .setHigh := fun _ => ⟨rfl, rfl⟩

theorem setLow : Statement .setLow := fun _ => ⟨rfl, rfl⟩

theorem delay (n : Nat) : Statement (.delay n) := fun _ => ⟨rfl, length_leBytes _ _⟩

end Sys2Proof.Laws.WordShape
end

