-- ==== Sys2Proof/Laws/Trace.lean ====
section
/-! SUPPORT. Traces apart from the machine: lengths, nominal cycles, the line and the waveform of symbols in a row. -/

namespace Sys2Proof.Machine

theorem length_wireBits (col : Color) : (wireBits col).length = 24 := rfl

theorem frameBits_cons (col : Color) (cs : List Color) : frameBits (col :: cs) = wireBits col ++ frameBits cs := rfl

theorem length_frameBits (cs : List Color) : (frameBits cs).length = 24 * cs.length := by
  induction cs with
  | nil => rfl
  | cons col cs ih => rw [frameBits_cons, List.length_append, ih, length_wireBits, List.length_cons]; omega

theorem length_symbols (cfg : Config) (c : Nat) (bits : List Bool) :
    (bits.flatMap (symbolEvents cfg c)).length = 4 * bits.length := by
  induction bits with
  | nil => rfl
  | cons b bs ih =>
    rw [List.flatMap_cons, List.length_append, ih]
    simp only [symbolEvents, List.length_cons, List.length_nil]
    omega

theorem nominalCycles_append (a b : List Event) : nominalCycles (a ++ b) = nominalCycles a + nominalCycles b := by
  simp only [nominalCycles, List.map_append, List.sum_append]

/-- Symbols last the same whatever their bits (30_encoding.md R76). -/
theorem nominalCycles_symbols (cfg : Config) (c : Nat) (bits : List Bool) :
    nominalCycles (bits.flatMap (symbolEvents cfg c)) =
      bits.length * (cfg.params.lMult + cfg.params.sMult) * c := by
  induction bits with
  | nil => simp [nominalCycles]
  | cons b bs ih =>
    rw [List.flatMap_cons, nominalCycles_append, ih]
    cases b <;>
      simp [nominalCycles, symbolEvents, Event.cycles, hiCycles, loCycles, longCycles, shortCycles] <;> ring

theorem lineAfter_append (l : Line) (a b : List Event) : lineAfter l (a ++ b) = lineAfter (lineAfter l a) b := by
  induction a generalizing l with
  | nil => rfl
  | cons e es ih =>
    rcases e with ⟨lv, an⟩ | n
    · cases lv <;> cases an <;> simp [lineAfter, ih]
    · simp [lineAfter, ih]

/-- A symbol ends with its low phase. -/
theorem lineAfter_symbols (cfg : Config) (c : Nat) (bits : List Bool) (l : Line) :
    lineAfter l (bits.flatMap (symbolEvents cfg c)) = if bits = [] then l else .low := by
  induction bits generalizing l with
  | nil => rfl
  | cons b bs ih =>
    rw [List.flatMap_cons, lineAfter_append, ih]
    split <;> rfl

theorem waveform_append (l : Line) (a b : List Event) :
    waveform l (a ++ b) = waveform l a ++ waveform (lineAfter l a) b := by
  induction a generalizing l with
  | nil => rfl
  | cons e es ih =>
    rcases e with ⟨lv, an⟩ | n
    · cases lv <;> cases an <;> simp [waveform, lineAfter, ih]
    · simp [waveform, lineAfter, ih]

/-- A bit-pulse is one High segment followed by one Low segment (00_scope.md R18). -/
theorem waveform_symbols (cfg : Config) (c : Nat) (bits : List Bool) (l : Line) :
    waveform l (bits.flatMap (symbolEvents cfg c)) =
      bits.flatMap fun b => [(.high, hiCycles cfg c b), (.low, loCycles cfg c b)] := by
  induction bits generalizing l with
  | nil => rfl
  | cons b bs ih => rw [List.flatMap_cons, waveform_append, ih]; rfl

end Sys2Proof.Machine
end

