-- ==== Sys2Proof/Laws/Sends.lean ====
section
/-! SUPPORT. Runs of symbols: how they compose, where the first fault cuts them, what they leave unchanged, and that they
read neither SEQ nor SHREG. -/

namespace Sys2Proof.Machine

theorem sendBits_append (c : Nat) (a b : List Bool) (s : State) :
    sendBits c (a ++ b) s = andThen (sendBits c a s) (sendBits c b) := by
  induction a generalizing s with
  | nil => rfl
  | cons x xs ih =>
    simp only [List.cons_append, sendBits]
    rcases hx : sendBit c x s with ⟨u, a⟩
    cases a
    · simp [ih]
    · simp

/-- A colour is its 24 wire bits, after SHREG is loaded. -/
theorem sendColor_eq (c : Nat) (col : Color) (s : State) :
    sendColor c col s = sendBits c (wireBits col) { s with shreg := some (wireWord col) } := by
  simp only [sendColor, wireBits, sendByte, sendBits_append]
  rcases sendBits c (byteBits col.g) { s with shreg := some (wireWord col) } with ⟨u, a⟩
  cases a <;> simp

/-- The first fault inside a run of symbols cuts it at that transition (60_exceptions.md R152). -/
theorem sendBits_fault (c : Nat) (bits : List Bool) (s : State) (t : Nat) (h : FirstFaultAt t s)
    (ht : t ≤ 2 * bits.length) :
    sendBits c bits s =
      ({ s.consume t with
          line := .unknown, dcnt := (if t = 1 then s.dcnt else none)
          trace := s.trace ++ (bits.flatMap (symbolEvents s.cfg c)).take (2 * t - 2) ++
            [.set (if t % 2 = 1 then .high else .low) .fault] }, .fault) := by
  induction bits generalizing s t with
  | nil => have := h.1; simp at ht; omega
  | cons b bs ih =>
    obtain ⟨h1, hall, hf⟩ := h
    obtain ⟨hk, hs⟩ | ⟨h0, hs⟩ | ⟨h0, h1', hs⟩ := sendBit_cases c b s
    · have ht3 : 3 ≤ t := by
        rcases Nat.lt_or_ge t 3 with hlt | hge
        · have := hk (t - 1) (by omega); rw [this] at hf; cases hf
        · exact hge
      have hff : FirstFaultAt (t - 2) (s.sent 2 (symbolEvents s.cfg c b)) := by
        refine ⟨by omega, ?_, ?_⟩
        · refine (allOk_congr (s := s.consume 2) rfl rfl).mpr (allOk_consume (allOk_mono (by omega) hall))
        · rw [answerAt_congr (s := s.consume 2) (t := s.sent 2 (symbolEvents s.cfg c b)) rfl rfl, answerAt_consume]
          rw [show 2 + (t - 2 - 1) = t - 1 by omega]; exact hf
      rw [sendBits, hs, andThen_ok, ih _ _ hff (by simp at ht; omega)]
      have hcc := consume_consume s 2 (t - 2)
      rw [show 2 + (t - 2) = t by omega] at hcc
      have e2 : (t - 2) % 2 = t % 2 := by omega
      have e3 : 2 * t - 2 - 4 = 2 * (t - 2) - 2 := by omega
      have e4 : 4 ≤ 2 * t - 2 := by omega
      have ha : (s.answers.drop 2).drop (t - 2) = s.answers.drop t := congrArg State.answers hcc
      have hd : s.draws + (2 - s.answers.length) + (t - 2 - (s.answers.drop 2).length) =
          s.draws + (t - s.answers.length) := congrArg State.draws hcc
      simp only [State.sent, State.consume, Prod.mk.injEq, State.mk.injEq, and_true, true_and, List.flatMap_cons, e2]
      refine ⟨by simp; omega, ?_, ha, hd⟩
      rw [List.take_append, List.take_of_length_le (l := symbolEvents s.cfg c b) (by simp [symbolEvents]; omega)]
      rw [show (symbolEvents s.cfg c b).length = 4 from rfl, e3]
      simp only [List.append_assoc]
    · have : t = 1 := by
        rcases Nat.eq_or_lt_of_le h1 with h | h
        · exact h.symm
        · have := hall 0 (by omega); rw [this] at h0; cases h0
      subst this
      simp [sendBits, hs, State.answered]
    · have : t = 2 := by
        rcases Nat.lt_or_ge t 2 with h | h
        · have : t = 1 := by omega
          subst this; rw [h0] at hf; cases hf
        · rcases Nat.eq_or_lt_of_le h with h | h
          · exact h.symm
          · have := hall 1 (by omega); rw [this] at h1'; cases h1'
      subst this
      simp [sendBits, hs, State.answered, State.consume, delayFor, symbolEvents]
      omega

/-- A state with another position. -/
def State.withSeq (s : State) (x : Option Pos) : State :=
  { s with seq := x }

/-- A state with another SHREG. -/
def State.withShreg (s : State) (x : Option Word24) : State :=
  { s with shreg := x }

theorem sendBit_withSeq (c : Nat) (b : Bool) (s : State) (x : Option Pos) :
    sendBit c b (s.withSeq x) = ((sendBit c b s).1.withSeq x, (sendBit c b s).2) := by
  simp only [sendBit, pinSet_eq]
  rw [show (s.withSeq x).answerAt 0 = s.answerAt 0 from rfl]
  cases s.answerAt 0
  · simp only [andThen_ok]
    rw [show (delayFor (hiCycles (s.withSeq x).cfg c b)
        (((s.withSeq x).consume 1).answered Level.high Answer.ok)).answerAt 0 =
      (delayFor (hiCycles s.cfg c b) ((s.consume 1).answered Level.high Answer.ok)).answerAt 0 from rfl]
    cases (delayFor (hiCycles s.cfg c b) ((s.consume 1).answered Level.high Answer.ok)).answerAt 0 <;> rfl
  · rfl

theorem sendBits_withSeq (c : Nat) (bits : List Bool) (s : State) (x : Option Pos) :
    sendBits c bits (s.withSeq x) = ((sendBits c bits s).1.withSeq x, (sendBits c bits s).2) := by
  induction bits generalizing s with
  | nil => rfl
  | cons b bs ih =>
    rw [sendBits, sendBits, sendBit_withSeq]
    rcases sendBit c b s with ⟨u, a⟩
    cases a
    · exact ih u
    · rfl

theorem sendGap_withSeq (c : Nat) (s : State) (x : Option Pos) :
    sendGap c (s.withSeq x) = ((sendGap c s).1.withSeq x, (sendGap c s).2) := by
  unfold sendGap
  rw [show (s.withSeq x).cfg = s.cfg from rfl]
  split
  · simp only [pinSet_eq]
    rw [show (s.withSeq x).answerAt 0 = s.answerAt 0 from rfl]
    cases s.answerAt 0 <;> rfl
  · rfl

theorem sendBit_withShreg (c : Nat) (b : Bool) (s : State) (x : Option Word24) :
    sendBit c b (s.withShreg x) = ((sendBit c b s).1.withShreg x, (sendBit c b s).2) := by
  simp only [sendBit, pinSet_eq]
  rw [show (s.withShreg x).answerAt 0 = s.answerAt 0 from rfl]
  cases s.answerAt 0
  · simp only [andThen_ok]
    rw [show (delayFor (hiCycles (s.withShreg x).cfg c b)
        (((s.withShreg x).consume 1).answered Level.high Answer.ok)).answerAt 0 =
      (delayFor (hiCycles s.cfg c b) ((s.consume 1).answered Level.high Answer.ok)).answerAt 0 from rfl]
    cases (delayFor (hiCycles s.cfg c b) ((s.consume 1).answered Level.high Answer.ok)).answerAt 0 <;> rfl
  · rfl

theorem sendBits_withShreg (c : Nat) (bits : List Bool) (s : State) (x : Option Word24) :
    sendBits c bits (s.withShreg x) = ((sendBits c bits s).1.withShreg x, (sendBits c bits s).2) := by
  induction bits generalizing s with
  | nil => rfl
  | cons b bs ih =>
    rw [sendBits, sendBits, sendBit_withShreg]
    rcases sendBit c b s with ⟨u, a⟩
    cases a
    · exact ih u
    · rfl

theorem sendGap_withShreg (c : Nat) (s : State) (x : Option Word24) :
    sendGap c (s.withShreg x) = ((sendGap c s).1.withShreg x, (sendGap c s).2) := by
  unfold sendGap
  rw [show (s.withShreg x).cfg = s.cfg from rfl]
  split
  · simp only [pinSet_eq]
    rw [show (s.withShreg x).answerAt 0 = s.answerAt 0 from rfl]
    cases s.answerAt 0 <;> rfl
  · rfl

/-- What symbols leave unchanged, answered ok or not; the trace only grows. -/
structure Keeps (s t : State) : Prop where
  cal : t.cal = s.cal
  rst : t.rst = s.rst
  pending : t.pending = s.pending
  rstIn : t.rstIn = s.rstIn
  calInit : t.calInit = s.calInit
  cfg : t.cfg = s.cfg
  mode : t.mode = s.mode
  seq : t.seq = s.seq
  fault : t.fault = s.fault
  len : t.len = s.len
  colors : t.colors = s.colors
  results : t.results = s.results
  shreg : t.shreg = s.shreg
  trace : s.trace <+: t.trace

theorem Keeps.refl (s : State) : Keeps s s := by constructor <;> rfl

theorem Keeps.trans {s t u : State} (h : Keeps s t) (g : Keeps t u) : Keeps s u := by
  constructor
  all_goals first | exact h.trace.trans g.trace | (simp [h.cal, g.cal, h.rst, g.rst, h.pending, g.pending, h.rstIn,
    g.rstIn, h.calInit, g.calInit, h.cfg, g.cfg, h.mode, g.mode, h.seq, g.seq, h.fault, g.fault, h.len, g.len,
    h.colors, g.colors, h.results, g.results, h.shreg, g.shreg])

theorem keeps_bit (c : Nat) (b : Bool) (s : State) : Keeps s (sendBit c b s).1 := by
  obtain ⟨_, h⟩ | ⟨_, h⟩ | ⟨_, _, h⟩ := sendBit_cases c b s <;> rw [h] <;> constructor <;> simp [State.sent]

theorem keeps_bits (c : Nat) (bits : List Bool) (s : State) : Keeps s (sendBits c bits s).1 := by
  induction bits generalizing s with
  | nil => exact Keeps.refl s
  | cons b bs ih =>
    have hk := keeps_bit c b s
    rw [sendBits]
    rcases hx : sendBit c b s with ⟨u, a⟩
    rw [hx] at hk
    cases a
    · exact hk.trans (ih u)
    · exact hk

theorem keeps_gap (c : Nat) (s : State) : Keeps s (sendGap c s).1 := by
  unfold sendGap
  split
  · rw [pinSet_eq]
    rcases h : s.answerAt 0 <;> constructor <;> simp
  · constructor <;> simp

end Sys2Proof.Machine
end

