-- ==== Sys2Proof/Laws/Run.lean ====
section
/-! SUPPORT. Runs of the sequencer: they compose, they read no reset schedule, and four steps of one are a symbol. -/

namespace Sys2Proof.Machine

/-- A state with a reset schedule of its own. -/
def State.withResets (s : State) (rs : List Bool) : State :=
  { s with rst := false, rstIn := rs }

/-- Under every schedule without a reset, `n` steps from `s` end in `t`. -/
def RunsTo (n : Nat) (s t : State) : Prop :=
  ∀ rs : List Bool, (∀ b ∈ rs.take n, b = false) →
    runSteps n (s.withResets rs) = .next (t.withResets (rs.drop n))

theorem RunsTo.refl (s : State) : RunsTo 0 s s := fun _ _ => rfl

theorem RunsTo.trans {m n : Nat} {s t u : State} (h : RunsTo m s t) (g : RunsTo n t u) : RunsTo (m + n) s u := by
  intro rs hrs
  have h1 := h rs (fun b hb => hrs b (List.take_subset_take_left _ (by omega) hb))
  have h2 := g (rs.drop m) (fun b hb => hrs b (by
    rw [List.take_drop] at hb; exact List.drop_subset _ _ hb))
  rw [runSteps_add n h1, h2, List.drop_drop]

theorem RunsTo.run {n : Nat} {s t : State} (h : RunsTo n s t) (hn : NoReset n s) :
    runSteps n s = .next { t with rst := false, rstIn := s.rstIn.drop n } := by
  have := h s.rstIn hn.2
  rwa [show s.withResets s.rstIn = s by simp [State.withResets, ← hn.1]] at this

theorem noReset_withResets {s : State} {rs : List Bool} {n : Nat} (h : ∀ b ∈ rs.take n, b = false) :
    NoReset n (s.withResets rs) := ⟨rfl, h⟩

/-- The sequencer reads no reset. -/
theorem sequencerStep_withResets {p : Pos} {s t : State} (h : sequencerStep p s = .next t) (rs : List Bool) :
    sequencerStep p (s.withResets rs) = .next (t.withResets rs) := by
  unfold sequencerStep at h ⊢
  split at h
  · rename_i l q hq
    simp only [loadColor] at h ⊢
    split at h
    · rename_i u hu
      cases hr : p.readsColor with
      | none =>
        rw [hr] at hu; simp only at hu ⊢; cases hu; cases h
        simp only [afterTransition, pinSet_eq]
        rw [show (s.withResets rs).answerAt 0 = s.answerAt 0 from rfl]
        cases s.answerAt 0 <;> rfl
      | some i =>
        rw [hr] at hu; simp only at hu ⊢
        rw [show memRead i (s.withResets rs) = memRead i s from rfl]
        cases hm : memRead i s with
        | none => rw [hm] at hu; cases hu
        | some col =>
          rw [hm] at hu; simp only at hu ⊢; cases hu; cases h
          simp only [afterTransition, pinSet_eq]
          rw [show ({ s.withResets rs with shreg := some (wireWord col) } : State).answerAt 0 = s.answerAt 0 from rfl,
            show ({ s with shreg := some (wireWord col) } : State).answerAt 0 = s.answerAt 0 from rfl]
          cases s.answerAt 0 <;> rfl
    · cases h
  · rename_i hq
    split at h
    · rename_i n hn; rw [show delayArgument p (s.withResets rs) = delayArgument p s from rfl, hn]; cases h
      cases p with
      | bit i ch k stg => cases stg <;> rfl
      | gap g => cases g <;> rfl
    · cases h

theorem runsTo_one {s t : State} {p : Pos} (hm : s.mode = .transmitting) (hs : s.seq = some p)
    (h : sequencerStep p s = .next t) : RunsTo 1 s t := by
  intro rs hrs
  have hstep : step (s.withResets rs) = .next (t.withResets (rs.drop 1)) := by
    rw [step_eq_sequencerStep (p := p) (noReset_withResets hrs) hm hs]
    have := sequencerStep_withResets h rs.tail
    rw [show (s.withResets rs).popRst = s.withResets rs.tail from rfl, this, List.drop_one]
  rw [runSteps_succ 0 hstep, runSteps_zero]

/-- The run from `s` issues the events `r` adds, and ends where `r` ends: with SEQ at `q`, or aborted. -/
def Follows (s : State) (r : State × Answer) (q : Pos) : Prop :=
  s.trace.length ≤ r.1.trace.length ∧
  match r.2 with
  | .ok => RunsTo (r.1.trace.length - s.trace.length) s (r.1.withSeq (some q))
  | .fault => RunsTo (r.1.trace.length - s.trace.length) s r.1.raisePinFault

theorem raisePinFault_withSeq (s : State) (x : Option Pos) : (s.withSeq x).raisePinFault = s.raisePinFault := rfl

/-- A run goes on where another ended. -/
theorem Follows.andThen {s : State} {r : State × Answer} {q q' : Pos} {f : State → State × Answer} (h : Follows s r q)
    (hf : ∀ x, f (r.1.withSeq x) = ((f r.1).1.withSeq x, (f r.1).2))
    (g : r.2 = .ok → Follows (r.1.withSeq (some q)) (f (r.1.withSeq (some q))) q') :
    Follows s (Machine.andThen r f) q' := by
  obtain ⟨u, a⟩ := r
  cases a
  · obtain ⟨h1, h2⟩ := h
    obtain ⟨g1, g2⟩ := g rfl
    rw [hf] at g1 g2
    simp only [andThen_ok] at *
    generalize f u = v at *
    obtain ⟨v, b⟩ := v
    refine ⟨Nat.le_trans h1 g1, ?_⟩
    have e : v.trace.length - s.trace.length =
        (u.trace.length - s.trace.length) + (v.trace.length - u.trace.length) := by
      have : u.trace.length ≤ v.trace.length := g1
      have : s.trace.length ≤ u.trace.length := h1
      omega
    cases b
    · rw [show ((v, Answer.ok).1.trace.length - s.trace.length) = _ from e]
      exact h2.trans g2
    · rw [show ((v, Answer.fault).1.trace.length - s.trace.length) = _ from e]
      exact h2.trans g2
  · exact h

/-- Four steps of the sequencer are one symbol (40_host_operations.md R103). -/
theorem follows_sendBit {c : Nat} {s : State} {i : Nat} {ch : Channel} {k : Fin 8} {w : Word24}
    (hm : s.mode = .transmitting) (hc : s.cal = some c) (hs : s.seq = some (.bit i ch k .setHigh))
    (hl : loadColor (.bit i ch k .setHigh) s = .ok (s.withShreg (some w))) :
    Follows s (sendBit c (wireBit w ch k) (s.withShreg (some w))) (nextPos s.cfg s.len i ch k) := by
  let u := s.withShreg (some w)
  have h1 : sequencerStep (.bit i ch k .setHigh) s =
      .next (afterTransition (.bit i ch k .delayHigh) (pinSet .high u)) := by
    simp only [sequencerStep, Pos.transition, hl]; rfl
  have G1 := runsTo_one hm hs h1
  simp only [sendBit, pinSet_eq]
  rw [pinSet_eq] at G1
  change Follows s (andThen ((u.consume 1).answered .high (u.answerAt 0), u.answerAt 0) _) _
  cases ha : u.answerAt 0 with
  | fault =>
    rw [ha] at G1
    refine ⟨by simp [u, State.withShreg, State.answered, State.consume], ?_⟩
    simp only [andThen_fault]
    convert G1 using 1
    all_goals first | rfl | simp [u, State.withShreg, State.answered, State.consume]
  | ok =>
    rw [ha] at G1
    simp only [afterTransition] at G1
    simp only [andThen_ok]
    let v : State := (u.consume 1).answered .high .ok
    let v1 : State := v.withSeq (some (.bit i ch k .delayHigh))
    have h2 : sequencerStep (.bit i ch k .delayHigh) v1 =
        .next ((delayFor (hiCycles s.cfg c (wireBit w ch k)) v).withSeq (some (.bit i ch k .setLow))) := by
      simp only [sequencerStep, Pos.transition, delayArgument, bitAt]
      rw [show v1.cal = some c from hc, show v1.shreg = some w from rfl]
      rfl
    have G2 := runsTo_one (s := v1) hm rfl h2
    let v2 : State := delayFor (hiCycles s.cfg c (wireBit w ch k)) v
    have h3 : sequencerStep (.bit i ch k .setLow) (v2.withSeq (some (.bit i ch k .setLow))) =
        .next (afterTransition (.bit i ch k .delayLow)
          (pinSet .low (v2.withSeq (some (.bit i ch k .setLow))))) := by
      simp only [sequencerStep, Pos.transition, loadColor, readsColor_eq_none i ch k (stg := .setLow) (by simp)]
    have G3 := runsTo_one (s := v2.withSeq (some (.bit i ch k .setLow))) hm rfl h3
    rw [pinSet_eq, show (v2.withSeq (some (.bit i ch k .setLow))).answerAt 0 = v2.answerAt 0 from rfl] at G3
    change Follows s (andThen ((v2.consume 1).answered .low (v2.answerAt 0), v2.answerAt 0) _) _
    cases hb : v2.answerAt 0 with
    | fault =>
      rw [hb] at G3
      refine ⟨by simp [v2, v, u, State.withShreg, State.answered, State.consume, delayFor], ?_⟩
      have := (G1.trans G2).trans G3
      simp only [andThen_fault]
      convert this using 1
      all_goals first | rfl | simp [v2, v, u, State.withShreg, State.answered, State.consume, delayFor]
    | ok =>
      rw [hb] at G3
      simp only [afterTransition] at G3
      simp only [andThen_ok]
      let v3 : State := (v2.consume 1).answered .low .ok
      have h4 : sequencerStep (.bit i ch k .delayLow) (v3.withSeq (some (.bit i ch k .delayLow))) =
          .next ((delayFor (loCycles s.cfg c (wireBit w ch k)) v3).withSeq
            (some (nextPos s.cfg s.len i ch k))) := by
        simp only [sequencerStep, Pos.transition, delayArgument, bitAt]
        rw [show (v3.withSeq (some (.bit i ch k .delayLow))).cal = some c from hc,
          show (v3.withSeq (some (.bit i ch k .delayLow))).shreg = some w from rfl]
        rfl
      have G4 := runsTo_one (s := v3.withSeq (some (.bit i ch k .delayLow))) hm rfl h4
      have := ((G1.trans G2).trans G3).trans G4
      refine ⟨by simp [v2, v, u, State.withShreg, State.answered, State.consume, delayFor], ?_⟩
      convert this using 1
      all_goals first | rfl | simp [v2, v, u, State.withShreg, State.answered, State.consume, delayFor]

end Sys2Proof.Machine
end

