-- ==== Sys2Proof/Tests/Slice0.lean ====
section
/-! SUPPORT. Tests. Expected results come from the spec's own vectors (95_test_vectors.md) or from its rules by hand;
each test names its source. A witness shows states and operands that meet the hypotheses of an obligation. -/

namespace Sys2Proof.Tests

open Sys2Proof.Machine

/-! ### Helpers -/

/-- A configuration record with other parameters. -/
def config (p : Params) (h : p.wf = true) : Config := ⟨p, h⟩

/-- Idle at `CAL = 10`, the pin answering as listed (P1 of 95_test_vectors.md after step 1). -/
def idle (answers : List Answer) : State :=
  { State.reset with cal := some 10, calInit := 10, answers := answers }

/-- A WRITE of one colour at the position, that colour loaded. -/
def sending (p : Pos) (answers : List Answer) : State :=
  { idle answers with
    mode := .transmitting, seq := some p, line := p.level, len := 1, colors := [⟨0xFF, 0x00, 0x80⟩]
    shreg := some 0x00FF80 }

/-- No encoder yet. -/
def absent (answers : List Answer) : State :=
  { State.beforeConstruction Config.taken 10 with fault := false, answers := answers }

/-- The next state of an outcome. -/
def nextOf : Host.Outcome State Fault Refusal → Option State
  | .next s => some s
  | .fault _ => none
  | .refused _ => none

/-- The refusal of an outcome. -/
def refusalOf : Host.Outcome State Fault Refusal → Option Refusal
  | .refused r => some r
  | .next _ => none
  | .fault _ => none

/-- The events a step from `s` adds. -/
def added (s : State) (o : Host.Outcome State Fault Refusal) : Option (List Event) :=
  (nextOf o).map fun t => t.trace.drop s.trace.length

def oks (n : Nat) : List Answer := List.replicate n .ok

/-- `H D(20) L D(10)`: SYM1 at `CAL = 10` (V7). -/
def one : List Event := [.set .high .ok, .delay 20, .set .low .ok, .delay 10]

/-- `H D(10) L D(20)`: SYM0 at `CAL = 10` (V8). -/
def zero : List Event := [.set .high .ok, .delay 10, .set .low .ok, .delay 20]

/-! ### Well-formedness: each check refuses an ill-formed term -/

theorem test_wf_delay_too_wide : ((Instr.delay (2 ^ 41)).wf 32) = false := by decide
theorem test_wf_delay_widest : ((Instr.delay (2 ^ 41 - 1)).wf 32) = true := by decide
theorem test_wf_cal_too_wide : (Instr.construct (2 ^ 32)).wf 32 = false := by decide
theorem test_wf_s_mult_zero : (Params.mk 2 0 300 0 true 32).wf = false := by decide
theorem test_wf_l_mult_not_above_s_mult : (Params.mk 2 2 300 0 true 32).wf = false := by decide
/-- `L_MULT = 4, S_MULT = 3` 'is not a legal configuration' (95_test_vectors.md 2.2). -/
theorem test_wf_four_to_three : (Params.mk 4 3 300 0 true 32).wf = false := by decide
/-- `L_MULT = 3, S_MULT = 2` is 'legal, and on the boundary' (95_test_vectors.md 2.2). -/
theorem test_wf_three_to_two : (Params.mk 3 2 300 0 true 32).wf = true := by decide
theorem test_wf_no_gap : (Params.mk 2 1 0 0 true 32).wf = false := by decide
theorem test_wf_l_mult_above_511 : (Params.mk 512 1 300 0 true 32).wf = false := by decide
theorem test_wf_reset_units_above_511 : (Params.mk 2 1 512 0 true 32).wf = false := by decide

/-! ### Decoding: words written out from the encodings (30_encoding.md R70, R73, R81, R82) -/

/-- P1 step 1: `op = 0`, `cal = 0x0000000A`. -/
theorem test_decode_construct : decode 32 ⟨.hostop, [0x00, 0x0A, 0x00, 0x00, 0x00]⟩ = .ok (.construct 10) := by decide
/-- P5 step 2: `op = 1`, `0x123456`, `0xABCDEF`. -/
theorem test_decode_write :
    decode 32 ⟨.hostop, [0x01, 0x01, 0x56, 0x34, 0x12, 0x01, 0xEF, 0xCD, 0xAB, 0x00]⟩ =
      .ok (.write [⟨0x12, 0x34, 0x56⟩, ⟨0xAB, 0xCD, 0xEF⟩]) := by decide
/-- V4: packed `0x123456`. -/
theorem test_decode_color : decode 32 ⟨.colorRgb, [0x56, 0x34, 0x12]⟩ = .ok (.color 0x12 0x34 0x56) := by decide
theorem test_decode_byte : decode 32 ⟨.byte8, [0b10100101]⟩ = .ok (.byte 0xA5) := by decide
theorem test_decode_sym1 : decode 32 ⟨.symbol, [0b1]⟩ = .ok .sym1 := by decide
theorem test_decode_sym0 : decode 32 ⟨.symbol, [0b0]⟩ = .ok .sym0 := by decide
theorem test_decode_gap : decode 32 ⟨.gap, []⟩ = .ok .gap := by decide
theorem test_decode_set_high : decode 32 ⟨.pinop, [0b1]⟩ = .ok .setHigh := by decide
theorem test_decode_set_low : decode 32 ⟨.pinop, [0b0]⟩ = .ok .setLow := by decide
/-- V9e's argument, `1288490188500 = 0x12B_FFFF_FED4`: 41 bits. -/
theorem test_decode_delay :
    decode 32 ⟨.delayop, [0xD4, 0xFE, 0xFF, 0xFF, 0x2B, 0x01]⟩ = .ok (.delay 1288490188500) := by decide
theorem test_decode_wrong_length : decode 32 ⟨.colorRgb, [0x56, 0x34]⟩ = .error .wrongLength := by decide
theorem test_decode_reserved_selector : decode 32 ⟨.pinop, [0b10]⟩ = .error .reservedSelector := by decide
theorem test_decode_bad_color_mark : decode 32 ⟨.hostop, [0x01, 0x02]⟩ = .error .badColorMark := by decide
/-- `W_CAL = 9` (R10): two bytes, of which the top seven bits are 0. -/
theorem test_decode_construct_nine_bits :
    (decode 9 ⟨.hostop, [0x00, 0xFF, 0x01]⟩, decode 9 ⟨.hostop, [0x00, 0x00, 0x02]⟩) =
      (.ok (.construct 511), .error .calTooWide) := by decide
theorem test_decode_delay_too_wide :
    decode 32 ⟨.delayop, [0x00, 0x00, 0x00, 0x00, 0x00, 0x02]⟩ = .error .delayTooWide := by decide
theorem test_table_word_color : decodeTableWord 24 0x123456 = some (.color 0x12 0x34 0x56) := by decide
theorem test_table_word_delay : decodeTableWord 48 20 = some (.delay 20) := by decide
theorem test_table_word_runs :
    step (State.reset.withFetchWord 0 0) =
      exec .gap { State.reset with mode := .transmitting, pending := [], seq := none, rst := false, rstIn := [] } := by
  rfl

/-! ### Primitives (V24 to V31) -/

theorem test_v24_set_high : (nextOf (exec .setHigh (idle [.ok]))).map (·.line) = some .high := by decide
theorem test_v28_set_high_faults :
    (nextOf (exec .setHigh (idle [.fault]))).map (fun t => (t.line, t.trace)) =
      some (.unknown, [.set .low .ok, .set .high .fault]) := by decide
theorem test_v29_set_low_from_unknown :
    (nextOf (exec .setLow { idle [.ok] with line := .unknown })).map (·.line) = some .low := by decide
theorem test_v27_set_low_already_low : added (idle [.ok]) (exec .setLow (idle [.ok])) = some [.set .low .ok] := by
  decide
theorem test_v30_delay_holds_high :
    (nextOf (exec (.delay 20) { idle [] with line := .high })).map (fun t => (t.line, t.trace)) =
      some (.high, [.set .low .ok, .delay 20]) := by decide
theorem test_v31_delay_zero : added (idle []) (exec (.delay 0) (idle [])) = some [.delay 0] := by decide

/-! ### Micro-operations (V7 to V9e) -/

theorem test_v7_sym1 : added (idle (oks 2)) (exec .sym1 (idle (oks 2))) = some one := by decide
/-- V8c: `2 × (2^32 − 1)` does not wrap. -/
theorem test_v8c_sym1_no_wrap :
    added (idle (oks 2)) (exec .sym1 { idle (oks 2) with cal := some 0xFFFFFFFF }) =
      some [.set .high .ok, .delay 8589934590, .set .low .ok, .delay 4294967295] := by decide
theorem test_v8_sym0 : added (idle (oks 2)) (exec .sym0 (idle (oks 2))) = some zero := by decide
/-- V8b: at `CAL = 0` every event is still issued. -/
theorem test_v8b_sym0_cal_zero :
    added (idle (oks 2)) (exec .sym0 { idle (oks 2) with cal := some 0 }) =
      some [.set .high .ok, .delay 0, .set .low .ok, .delay 0] := by decide
/-- V9: wire bits `10100101`. -/
theorem test_v9_byte :
    added (idle (oks 16)) (exec (.byte 0xA5) (idle (oks 16))) =
      some (one ++ zero ++ one ++ zero ++ zero ++ one ++ zero ++ one) := by decide
/-- X8: the right answer for 0x7F is one SYM0, then seven SYM1. -/
theorem test_x8_byte_tests_the_bit :
    added (idle (oks 16)) (exec (.byte 0x7F) (idle (oks 16))) =
      some (zero ++ one ++ one ++ one ++ one ++ one ++ one ++ one) := by decide
set_option maxRecDepth 20000 in
/-- V2: pure green puts its ones first. -/
theorem test_v2_color_green_first :
    (added (idle (oks 48)) (exec (.color 0x00 0xFF 0x00) (idle (oks 48)))).map (·.take 32) =
      some (one ++ one ++ one ++ one ++ one ++ one ++ one ++ one) := by rfl
set_option maxRecDepth 20000 in
/-- V6e: the single 1 is the 16th wire bit. -/
theorem test_v6e_color_msb_first :
    (added (idle (oks 48)) (exec (.color 0x01 0x00 0x00) (idle (oks 48)))).map (fun es => (es.drop 60).take 8) =
      some (one ++ zero) := by rfl
theorem test_v9c_gap : added (idle (oks 1)) (exec .gap (idle (oks 1))) = some [.set .low .ok, .delay 3000] := by decide
theorem test_v9d_gap_without_set_low :
    added (idle []) (exec .gap { idle [] with cfg := config ⟨2, 1, 300, 0, false, 32⟩ (by decide) }) =
      some [.delay 3000] := by decide

/-! ### CONSTRUCT (V22 to V23a) -/

theorem test_v22_construct :
    (nextOf (exec (.construct 10) (absent [.ok]))).map (fun t => (t.cal, t.line, t.mode, t.trace)) =
      some (some 10, .low, .idle, [.set .low .ok]) := by decide
theorem test_v23_construct_faults :
    (nextOf (exec (.construct 10) (absent [.fault]))).map (fun t => (t.cal, t.line, t.mode, t.results)) =
      some (none, .unknown, .absent, [.pinFault]) := by decide
theorem test_v23a_construct_not_admitted : refusalOf (exec (.construct 5) (idle [])) = some .notAdmitted := by decide

/-! ### WRITE -/

theorem test_v23b_write_not_admitted : refusalOf (exec (.write []) (absent [])) = some .notAdmitted := by decide
/-- P1 step 2: the WRITE starts at `Bit(0,0,7,SH)`. -/
theorem test_p1_write_starts :
    (nextOf (exec (.write [⟨0xFF, 0x00, 0x80⟩]) (idle []))).map (fun t => (t.mode, t.seq)) =
      some (.transmitting, some (.bit 0 .green 7 .setHigh)) := by decide
/-- P1: `Bit(0,0,7,SH)` reads the colour and issues `H`. -/
theorem test_p1_first_position :
    (nextOf (step { sending (.bit 0 .green 7 .setHigh) [.ok] with shreg := none })).map
      (fun t => (t.seq, t.shreg, t.line)) =
      some (some (.bit 0 .green 7 .delayHigh), some 0x00FF80, .high) := by decide
/-- P1: `r[7] = 1`, so `Bit(0,1,7,DH)` issues `D(20)`. -/
theorem test_p1_red_msb :
    added (idle []) (step (sending (.bit 0 .red 7 .delayHigh) [])) = some [.delay 20] := by decide
/-- P1: `Bit(0,0,0,DL)` issues `D(20)` and goes to `Bit(0,1,7,SH)`. -/
theorem test_p1_next_channel :
    (nextOf (step (sending (.bit 0 .green 0 .delayLow) []))).map (fun t => (t.seq, t.trace.drop 1)) =
      some (some (.bit 0 .red 7 .setHigh), [.delay 20]) := by decide
/-- P1: `Bit(0,2,0,DL)` goes to `Gap(GS)`, since `i + 1 = len`. -/
theorem test_p1_to_the_gap :
    (nextOf (step (sending (.bit 0 .blue 0 .delayLow) []))).map (·.seq) = some (some (.gap .setLow)) := by decide
/-- V34: at `CAL = 2^32 − 1` and `CAL_STEP = 1` the gap is not wrapped, and CAL is. -/
theorem test_v34_cal_wraps :
    (nextOf (step { sending (.gap .delay) [] with
        cal := some 0xFFFFFFFF, cfg := config ⟨2, 1, 300, 1, true, 32⟩ (by decide) })).map
      (fun t => (t.cal, t.trace.drop 1, t.mode, t.results)) =
      some (some 0, [.delay 1288490188500], .idle, [.ok, .ok]) := by decide
/-- R98 at `W_CAL = 8`: `(255 + 1) mod 2^8`. -/
theorem test_cal_wraps_at_its_width :
    (nextOf (step { sending (.gap .delay) [] with
        cal := some 255, cfg := config ⟨2, 1, 300, 1, true, 8⟩ (by decide) })).map (·.cal) = some (some 0) := by decide
/-- V19: the SET_LOW of the first bit of red faults; CAL does not step although `CAL_STEP = 1` (V33). -/
theorem test_v19_fault_aborts :
    (nextOf (step { sending (.bit 0 .red 7 .setLow) [.fault] with
        cfg := config ⟨2, 1, 300, 1, true, 32⟩ (by decide) })).map
      (fun t => (t.mode, t.seq, t.line, t.cal, t.fault)) =
      some (.idle, none, .unknown, some 10, true) := by decide
theorem test_v19_fault_trace :
    (nextOf (step (sending (.bit 0 .red 7 .setLow) [.fault]))).map (fun t => (t.trace.drop 1, t.results)) =
      some ([.set .low .fault], [.ok, .pinFault]) := by decide
set_option maxRecDepth 20000 in
/-- V12, by the big step. -/
theorem test_v12_big_step :
    (writeWhole 10 [⟨0xFF, 0x00, 0x80⟩] (idle (oks 49))).trace.drop 1 =
      (List.replicate 8 zero).flatten ++ (List.replicate 9 one).flatten ++ (List.replicate 7 zero).flatten ++
        [.set .low .ok, .delay 3000] := by rfl

/-! ### Reset, ports, wires -/

/-- A reset cuts a WRITE (70_reset_and_hazards.md R183); then its release constructs (R180). -/
theorem test_reset_cuts :
    (nextOf (step { sending (.bit 0 .red 7 .setLow) [.ok] with rstIn := [true] })).map
      (fun t => (t.mode, t.results, t.seq, t.rst)) = some (.absent, [.ok], none, true) := by decide
theorem test_reset_release :
    (nextOf (step { absent [.ok] with rst := true })).map (fun t => (t.mode, t.cal, t.line, t.rst)) =
      some (.idle, some 10, .low, false) := by decide
/-- V1: packed `0xFF0000`, wire word `0x00FF00`. -/
theorem test_v1_wire_word : (packRgb ⟨0xFF, 0, 0⟩, rgbToWire 0xFF0000) = (0xFF0000, 0x00FF00) := by decide

/-- One cycle with `W_LEN = 8`. -/
def portIn : PortIn 32 8 := ⟨false, 10, true, 1, 0xFF0080, false⟩

/-- `col_idx` after the cycle that starts a WRITE: colour 0 is fetched next (R34, log 18). -/
theorem test_port_col_idx :
    (nextOf (tick portIn (idle []))).map (fun t => (t.len, (portOut 8 (idle []) t).colIdx)) =
      some (1, some 0) := by decide
/-- The cycle of a transition loads DCNT with the argument of the DELAY after it (42_pin_and_delay_primitives.md R137). -/
theorem test_port_transition :
    (nextOf (tick portIn { sending (.bit 0 .red 7 .setHigh) [] with dcnt := none })).map
      (fun t => (t.seq, t.dcnt, t.line)) = some (some (.bit 0 .red 7 .delayHigh), some 20, .high) := by decide
/-- `rst` wins over `pin_err` (60_exceptions.md R157). -/
theorem test_port_reset_wins :
    (nextOf (tick { portIn with rst := true, pinErr := true } (sending (.bit 0 .red 7 .setHigh) []))).map
      (fun t => (t.mode, t.results)) = some (.absent, [.ok]) := by decide

/-! ### Timing (V36 to V39), at 240 MHz -/

def clock (ovh : Nat) : Platform := ⟨240000000, ovh, 0⟩

/-- V38: 320 cycles, 83 ns over nominal: inside. -/
theorem test_v38_inside : timingP1 (clock 10) Config.taken 100 true = true := by decide
/-- V39: 360 cycles, 250 ns over: outside. -/
theorem test_v39_outside : timingP1 (clock 0) Config.taken 120 true = false := by decide
/-- V37: high 196 and low 103 cycles for a 1. -/
theorem test_v37_folded : (wallHigh (clock 10) Config.taken 93 true, wallLow (clock 10) Config.taken 93 true) = (196, 103) := by
  decide
/-- V37 meets both fractions: 65.6 % and 34.4 %. -/
theorem test_v37_fractions :
    (timingP2 (clock 10) Config.taken 93 true, timingP2 (clock 10) Config.taken 93 false) = (true, true) := by decide
/-- V36: a gap of 30 000 cycles, 125 µs. -/
theorem test_v36_gap : timingP3 (clock 0) Config.taken 100 = true := by decide

/-- R196, 'for example': 240 MHz and no overhead give 100. -/
theorem test_r196_nominal_cal : nominalCal (clock 0) Config.taken = 100 := by decide
/-- R196, column 'units', and 1308 for 14 colours. -/
theorem test_r196_units :
    ([.unit, .shortPhase, .longPhase, .bitPeriod, .byte, .color, .resetGap, .write 14] : List Quantity).map
      (Quantity.units Config.taken) = [1, 1, 2, 3, 24, 72, 300, 1308] := by decide
/-- R196, column 'nominal time': 416.7 ns, 833.3 ns, 1.25 µs, 10 µs, 30 µs, 125 µs, 545 µs. -/
theorem test_r196_times :
    ([.unit, .longPhase, .bitPeriod, .byte, .color, .resetGap, .write 14] : List Quantity).map
      (Quantity.timeNs Config.taken) = [1250 / 3, 2500 / 3, 1250, 10000, 30000, 125000, 545000] := by
  norm_num [Quantity.timeNs, Quantity.units, Config.taken, tBitNomNs]

/-! ### Witnesses: the hypotheses of the obligations are met -/

theorem idle_inv (answers : List Answer) : (idle answers).Inv := by
  constructor <;> simp [idle, State.reset, State.noFaultRecorded, Event.isFaulted, Config.taken]

theorem sending_inv (p : Pos) (answers : List Answer)
    (h : p ∈ [Pos.bit 0 .green 7 .delayHigh, .bit 0 .red 7 .setLow, .bit 0 .blue 0 .delayLow, .gap .setLow,
      .gap .delay]) :
    (sending p answers).Inv := by
  simp only [List.mem_cons, List.not_mem_nil, or_false] at h
  constructor
  case index_in_range =>
    rintro i ch k stg hp
    obtain rfl | rfl | rfl | rfl | rfl := h <;> cases hp <;> exact Nat.zero_lt_one
  case shreg_colour =>
    rintro i ch k stg col hp hc -
    obtain rfl | rfl | rfl | rfl | rfl := h <;> cases hp <;> cases hc <;> rfl
  case gap_opens => exact fun _ => rfl
  case level_or_unknown => exact fun q hq => .inl (by cases hq; rfl)
  case transmitting_level => exact fun q _ hq => by cases hq; rfl
  all_goals simp [sending, idle, State.reset, Config.taken]

theorem absent_inv (answers : List Answer) : ({ absent answers with rst := true } : State).Inv := by
  constructor <;> simp [absent, State.beforeConstruction, Config.taken]

/-- DecodeOfEncodeIsTheOperation. -/
theorem witness_well_formed : ((Instr.delay (2 ^ 41 - 1)).wf 32) = true ∧ ((Instr.write []).wf 32) = true := by decide

/-- EveryDecodableWordIsItsEncoding. -/
theorem witness_decodes : decode 32 ⟨.hostop, [0x01, 0x00]⟩ = .ok (.write []) := by decide

/-- StepRunsTheDecodedOperation, first clause: HOST's own operation. -/
theorem witness_step_runs_host_operation :
    let s := { idle [] with pending := [encode 32 (.write [])] }
    NoReset 1 s ∧ s.position = none ∧ s.pending = encode 32 (.write []) :: [] ∧
      decode 32 (encode 32 (.write [])) = .ok (.write []) ∧ (Instr.write []).format = .hostop := by
  unfold NoReset
  decide

/-- StepRunsTheDecodedOperation, first clause: a piece of WRITE in a running WRITE. -/
theorem witness_step_runs_piece :
    let s := { idle [] with pending := [encode 32 .sym1], mode := .transmitting }
    NoReset 1 s ∧ s.position = none ∧ decode 32 (encode 32 .sym1) = .ok .sym1 ∧ s.mode = .transmitting := by
  unfold NoReset
  decide

/-- StepRunsTheDecodedOperation, second clause: a piece of WRITE asked for by HOST. -/
theorem witness_step_refuses_piece :
    let s := { idle [] with pending := [encode 32 .sym1] }
    NoReset 1 s ∧ s.position = none ∧ Instr.sym1.format ≠ .hostop ∧ s.mode ≠ .transmitting ∧
      refusalOf (step s) = some .hostCannotIssue := by
  unfold NoReset
  decide

/-- StepRunsTheDecodedOperation, last clause. -/
theorem witness_step_stays : NoReset 1 (idle []) ∧ (idle []).position = none ∧ (idle []).pending = [] := by
  unfold NoReset
  decide

/-- SequencerIssuesThePrimitives, first clause, at a position that reads a colour. -/
theorem witness_sequencer_transition :
    let s := sending (.bit 0 .green 7 .setHigh) [.ok]
    NoReset 1 s ∧ s.mode = .transmitting ∧ s.seq = some (.bit 0 .green 7 .setHigh) ∧
      loadColor (.bit 0 .green 7 .setHigh) s = .ok s ∧ s.answerAt 0 = .ok := by
  unfold NoReset
  refine ⟨by decide, rfl, rfl, rfl, by decide⟩

/-- SequencerIssuesThePrimitives, second clause; HostIsBlockedUntilTheOneResult. -/
theorem witness_sequencer_delay :
    let s := sending (.gap .delay) []
    NoReset 1 s ∧ s.mode = .transmitting ∧ s.seq.isSome = true ∧ (Pos.gap .delay).transition = none ∧
      delayArgument (.gap .delay) s = .ok 3000 ∧ (nextOf (step s)).isSome = true := by
  unfold NoReset
  refine ⟨by decide, rfl, rfl, rfl, rfl, by decide⟩

/-- SetHighDrivesTheLine, SetLowDrivesTheLine, GapHoldsTheLineLow: PIN's first answer is ok, or fault. -/
theorem witness_answers : (idle [.ok]).answerAt 0 = .ok ∧ (idle [.fault]).answerAt 0 = .fault := by decide

/-- Sym1SendsLongHighShortLow, Sym0SendsShortHighLongLow: each premise. -/
theorem witness_symbols :
    (idle []).cal = some 10 ∧ AllOk 2 (idle (oks 2)) ∧ FirstFaultAt 1 (idle [.fault]) ∧
      FirstFaultAt 2 (idle [.ok, .fault]) := by
  unfold FirstFaultAt AllOk
  decide

/-- ByteSendsEightSymbolsMsbFirst, ColorSendsGreenRedBlue, DurationSums, SymbolSelectionIsTheExactBit. -/
theorem witness_bytes_and_colors :
    (idle (oks 48)).cal = some 10 ∧ AllOk 16 (idle (oks 48)) ∧ AllOk 48 (idle (oks 48)) ∧
      (idle (oks 48)).cfg = Config.taken := by
  unfold AllOk
  decide

/-- GapHoldsTheLineLow, EmptyWriteIsOneGap: both values of `GAP_SET_LOW`. -/
theorem witness_gap :
    (idle []).cfg.params.gapSetLow = true ∧
      (config ⟨2, 1, 300, 0, false, 32⟩ (by decide)).params.gapSetLow = false ∧ NoReset 2 (idle []) := by
  unfold NoReset
  decide

/-- FaultInsideByteOrColorAborts: at the last transition of a BYTE, and of a COLOR. -/
theorem witness_fault_inside :
    FirstFaultAt 16 (idle (oks 15 ++ [.fault])) ∧ FirstFaultAt 48 (idle (oks 47 ++ [.fault])) := by
  unfold FirstFaultAt AllOk
  decide

/-- PrimitivesLeaveTheRestUnchanged, MicroOperationsLeaveTheRestUnchanged: a next state of each shape. -/
theorem witness_frames :
    (nextOf (exec .setHigh (idle [.fault]))).isSome = true ∧ (nextOf (exec (.delay 1) (idle []))).isSome = true ∧
      (nextOf (exec .sym1 (idle [.fault]))).isSome = true ∧
      (nextOf (exec (.color 1 2 3) (idle (oks 48)))).isSome = true ∧
      (nextOf (exec .gap (idle (oks 1)))).isSome = true := by decide

/-- DelayArgumentsNeverWrap. -/
theorem witness_delay_argument :
    (sending (.gap .delay) []).cal = some 10 ∧ 10 < 2 ^ (sending (.gap .delay) []).cfg.params.wCal ∧ (Pos.gap .delay).transition = none ∧
      delayArgument (.gap .delay) (sending (.gap .delay) []) = .ok 3000 := ⟨rfl, by decide, rfl, rfl⟩

/-- ConstructFollowsItsPseudocode, OperationsAreAdmittedByMode, HostOperationsLeaveTheRestUnchanged. -/
theorem witness_modes :
    (absent [.ok]).mode = .absent ∧ (absent [.ok]).answerAt 0 = .ok ∧ (absent [.fault]).answerAt 0 = .fault ∧
      (idle []).mode ≠ .absent ∧ (sending (.gap .delay) []).mode ≠ .idle ∧ (sending (.gap .delay) []).busy = true ∧
      (nextOf (exec (.write []) (idle []))).isSome = true ∧
      (nextOf (exec (.construct 10) (absent [.ok]))).isSome = true := by decide

/-- ResetReleaseConstructs. -/
theorem witness_reset_release :
    let s : State := { absent [.ok] with rst := true }
    s.Inv ∧ s.rst = true ∧ s.rstNow = false ∧ s.answerAt 0 = .ok := ⟨absent_inv [.ok], by decide⟩

/-- ResetCutsAWrite, both clauses. -/
theorem witness_reset_cuts :
    let s := { sending (.bit 0 .red 7 .setLow) [.ok] with rstIn := [true, false] }
    s.rstNow = true ∧ (nextOf (step s)).map (fun t => (t.rstNow, t.answerAt 0)) = some (false, .ok) := by decide

/-- SequencerFollowsItsTable: the rows of the two DELAYs of a symbol. -/
theorem witness_table_delays :
    (sending (.bit 0 .green 7 .delayHigh) []).Inv ∧ (sending (.bit 0 .blue 0 .delayLow) []).Inv ∧
      (sending (.bit 0 .blue 0 .delayLow) []).colors[0]? = some ⟨0xFF, 0x00, 0x80⟩ :=
  ⟨sending_inv _ _ (by simp), sending_inv _ _ (by simp), rfl⟩

/-- SequencerFollowsItsTable: the rows, at the first and the last positions of a WRITE. -/
theorem witness_table_rows :
    let s := sending (.bit 0 .green 7 .setHigh) [.ok]
    NoReset 1 s ∧ s.mode = .transmitting ∧ s.cal = some 10 ∧ s.colors[0]? = some ⟨0xFF, 0x00, 0x80⟩ ∧
      (sending (.bit 0 .green 7 .delayHigh) []).seq = some (.bit 0 .green 7 .delayHigh) ∧
      (sending (.bit 0 .blue 0 .setLow) []).seq = some (.bit 0 .blue 0 .setLow) ∧
      (sending (.bit 0 .blue 0 .delayLow) []).seq = some (.bit 0 .blue 0 .delayLow) ∧
      (sending (.gap .setLow) []).seq = some (.gap .setLow) ∧ (sending (.gap .delay) []).seq = some (.gap .delay) := by
  unfold NoReset
  decide

/-- AbortLeavesTheStateOfPinFault. -/
theorem witness_abort :
    let s := sending (.gap .setLow) [.fault]
    NoReset 1 s ∧ s.mode = .transmitting ∧ s.seq = some (.gap .setLow) ∧
      (Pos.gap .setLow).transition = some (.low, .gap .delay) ∧ loadColor (.gap .setLow) s = .ok s ∧
      s.answerAt 0 = .fault := by
  unfold NoReset
  refine ⟨by decide, rfl, rfl, rfl, rfl, by decide⟩

/-- CalStepsOnlyAfterOk, both clauses. -/
theorem witness_cal_steps :
    NoReset 1 (sending (.gap .delay) []) ∧ (sending (.gap .delay) []).cal = some 10 ∧
      10 < 2 ^ (sending (.gap .delay) []).cfg.params.wCal ∧
      (sending (.gap .setLow) [.fault]).seq ≠ some (.gap .delay) ∧
      (nextOf (step (sending (.gap .setLow) [.fault]))).isSome = true := by
  unfold NoReset
  decide

/-- WriteTransmitsItsFrame, SequencerIsTheBigStep, PinFaultExactlyWhenATransitionFaults, WriteLastsItsNominalDuration,
SequencerVisitsThePositionsInOrder, WriteTraceIsDetermined: an Idle state, one colour, every transition answered ok. -/
theorem witness_write :
    let s := idle (oks 49)
    s.mode = .idle ∧ s.cal = some 10 ∧ NoReset (eventCount s.cfg 1) s ∧ AllOk (transitionCount s.cfg 1) s ∧
      NoReset ((writeWhole 10 [⟨1, 2, 3⟩] s).trace.length - s.trace.length) s := by
  unfold AllOk NoReset
  exact ⟨rfl, rfl, by decide, by decide, rfl, fun _ h => by simp [idle, State.reset] at h⟩

/-- WriteEmitsTheCountsOfItsLength. -/
theorem witness_write_counts :
    (idle (oks 49)).Inv ∧ (idle (oks 49)).mode = .idle ∧ AllOk (transitionCount (idle []).cfg 1) (idle (oks 49)) := by
  unfold AllOk
  exact ⟨idle_inv _, rfl, by decide⟩

/-- FaultedWriteIsCutAtTheTransition: `t` odd and even within a colour, and at the gap's SET_LOW (V17, V18, V21). -/
theorem witness_faulted_write :
    FirstFaultAt 1 (idle [.fault]) ∧ FirstFaultAt 2 (idle [.ok, .fault]) ∧
      FirstFaultAt 49 (idle (oks 48 ++ [.fault])) ∧ 49 ≤ transitionCount (idle []).cfg 1 ∧
      NoReset (2 * 49 - 1) (idle []) := by
  unfold FirstFaultAt AllOk NoReset
  exact ⟨by decide, by decide, by decide, by decide, rfl, fun _ h => by simp [idle, State.reset] at h⟩

/-- BackToBackWritesKeepTheirGaps, of an empty sequence and of one colour. -/
theorem witness_back_to_back :
    let s := { idle (oks 50) with pending := [encode 32 (.write []), encode 32 (.write [⟨1, 2, 3⟩])] }
    s.mode = .idle ∧ s.cal = some 10 ∧ AllOk (transitionCount s.cfg 0 + transitionCount s.cfg 1) s ∧
      NoReset (eventCount s.cfg 0 + eventCount s.cfg 1 + 2) s := by
  unfold AllOk NoReset
  exact ⟨rfl, rfl, by decide, rfl, fun _ h => by simp [idle, State.reset] at h⟩

/-- ColorIsNinetySixSequencerSteps. -/
theorem witness_color_steps :
    let s := sending (.bit 0 .green 7 .setHigh) (oks 48)
    NoReset 96 s ∧ s.mode = .transmitting ∧ s.cal = some 10 ∧ s.seq = some (.bit 0 .green 7 .setHigh) ∧
      s.colors[0]? = some ⟨0xFF, 0x00, 0x80⟩ ∧ AllOk 48 s := by
  unfold AllOk NoReset
  exact ⟨⟨rfl, fun _ h => by simp [sending, idle, State.reset] at h⟩, rfl, rfl, rfl, rfl, by decide⟩

/-- EveryWriteEnds. -/
theorem witness_running :
    let s := sending (.bit 0 .green 7 .delayHigh) []
    s.Inv ∧ s.mode = .transmitting ∧ NoReset (eventCount s.cfg s.len) s := by
  refine ⟨sending_inv _ _ (by simp), rfl, rfl, fun _ h => ?_⟩
  simp [sending, idle, State.reset] at h

/-- The rules about every step, from Idle: EveryStepKeepsTheInvariant, NoReachedStateFaults, ModeMovesOnlyAsListed,
CalIsWrittenOnlyAsListed, OnlyTransitionsMoveTheLine, FaultFlagHoldsTheLastResult, NoStepChangesTheConfiguration. -/
theorem witness_step_from_idle :
    let s := { idle [] with pending := [encode 32 (.write [⟨1, 2, 3⟩])] }
    s.Inv ∧ (nextOf (step s)).map (·.mode) = some .transmitting := by
  refine ⟨?_, by decide⟩
  constructor <;> simp [idle, State.reset, State.noFaultRecorded, Event.isFaulted, Config.taken]

/-- The same, and WriteEndsOnlyByItsLastStepOrPinFault: a WRITE's last step, and a fault. -/
theorem witness_step_ends_write :
    (sending (.gap .delay) []).Inv ∧ (nextOf (step (sending (.gap .delay) []))).map (·.mode) = some .idle ∧
      (sending (.bit 0 .red 7 .setLow) [.fault]).Inv ∧
      (nextOf (step (sending (.bit 0 .red 7 .setLow) [.fault]))).map (fun t => (t.mode, t.results)) =
        some (.idle, [.ok, .pinFault]) :=
  ⟨sending_inv _ _ (by simp), by decide, sending_inv _ _ (by simp), by decide⟩

/-- LineFollowsThePosition: Idle, at a position with the line High, and before an abort. -/
theorem witness_line :
    (idle []).Inv ∧ (idle []).noFaultRecorded = true ∧ (idle []).mode = .idle ∧
      (sending (.bit 0 .green 7 .delayHigh) []).noFaultRecorded = true ∧
      (sending (.bit 0 .green 7 .delayHigh) []).line = .high :=
  ⟨idle_inv [], by decide, rfl, by decide, rfl⟩

/-- PortDelayCountsDown. -/
theorem witness_port_delay :
    let s := { sending (.bit 0 .red 7 .delayHigh) [] with dcnt := some 20 }
    portIn.rst = false ∧ s.rst = false ∧ s.mode = .transmitting ∧ s.dcnt = some 20 ∧
      delayArgument (.bit 0 .red 7 .delayHigh) s = .ok 20 := ⟨rfl, rfl, rfl, rfl, rfl⟩

/-- PortCyclesFollowTheSequencer, at a position that reads a colour. -/
theorem witness_port_cycles :
    let s := { sending (.bit 0 .green 7 .setHigh) [] with dcnt := none }
    portIn.pinErr = false ∧ s.dcnt = none ∧
      (Pos.bit 0 .green 7 .setHigh).transition = some (.high, .bit 0 .green 7 .delayHigh) ∧
      delayArgument (.bit 0 .green 7 .delayHigh) (loadPort (.bit 0 .green 7 .setHigh) portIn.colRgb s) = .ok 10 ∧
      (Pos.bit 0 .green 7 .setHigh).readsColor = some 0 ∧ memRead 0 s = some ⟨0xFF, 0x00, 0x80⟩ ∧
      portIn.colRgb = packRgb ⟨0xFF, 0x00, 0x80⟩ := ⟨rfl, rfl, rfl, rfl, rfl, rfl, rfl⟩

/-- PortResetWins, both clauses. -/
theorem witness_port_reset :
    ({ portIn with rst := true } : PortIn 32 8).rst = true ∧ portIn.rst = false ∧ portIn.pinErr = false ∧
      ({ absent [] with rst := true } : State).mode = .absent := ⟨rfl, rfl, rfl, rfl⟩

/-- StretchOnlyLengthens, NextFrameIsFreshAfterOk. -/
theorem witness_timing :
    noDisturb [0, 0] = true ∧ ([⟨1, 2, 3⟩] : List Color) ≠ [] ∧ timingP3 (clock 0) Config.taken 100 = true := by decide

/-- PortRegistersKeepTheirWidths: a WRITE starts, of the longest sequence `W_LEN = 8` can name; and inside a DELAY. -/
theorem witness_port_widths :
    (idle []).PortInv 8 ∧ (nextOf (tick ({ portIn with len := 255 } : PortIn 32 8) (idle []))).map (·.len) = some 255 ∧
      (let s := { sending (.bit 0 .red 7 .delayHigh) [] with dcnt := some 20 }
      s.PortInv 8 ∧ (nextOf (tick portIn s)).map (·.dcnt) = some (some 19)) := by
  refine ⟨?_, by decide, ?_, by decide⟩
  · constructor <;> simp [idle, State.reset, Config.taken, Params.wDly, delayWidth]
  · constructor <;> simp [sending, idle, State.reset, Config.taken, Params.wDly, delayWidth]
    rintro _ _ _ _ rfl _ _ _
    rfl

end Sys2Proof.Tests
end

section
/-! PROOFS. Every operation keeps the invariant of the machine; so does every step, and every run. -/

namespace Sys2Proof.Machine

/-! ### Positions -/

/-- The positions that issue a DELAY (R92). -/
theorem delay_position_cases {p : Pos} (h : p.transition = none) :
    (∃ i ch k, p = .bit i ch k .delayHigh) ∨ (∃ i ch k, p = .bit i ch k .delayLow) ∨ p = .gap .delay := by
  cases p with
  | bit i ch k stg => cases stg <;> simp [Pos.transition] at h ⊢
  | gap stg => cases stg <;> simp [Pos.transition] at h ⊢

/-- The positions that issue a transition, each with the position after an ok answer (R92). -/
theorem transition_cases {p q : Pos} {l : Level} (h : p.transition = some (l, q)) :
    (∃ i ch k, p = .bit i ch k .setHigh ∧ q = .bit i ch k .delayHigh) ∨
    (∃ i ch k, p = .bit i ch k .setLow ∧ q = .bit i ch k .delayLow) ∨ (p = .gap .setLow ∧ q = .gap .delay) := by
  cases p with
  | bit i ch k stg => cases stg <;> simp_all [Pos.transition]
  | gap stg => cases stg <;> simp_all [Pos.transition]

/-- The gap opens with `GS` only when `GAP_SET_LOW` (R24). -/
theorem gapStart_cases (cfg : Config) :
    (cfg.params.gapSetLow = true ∧ gapStart cfg = .gap .setLow) ∨ gapStart cfg = .gap .delay := by
  unfold gapStart
  split
  · rename_i h; exact .inl ⟨h, rfl⟩
  · exact .inr rfl

/-- A WRITE starts at its first colour, or at the gap when there is none (R92). -/
theorem startPos_cases (cfg : Config) (len : Nat) :
    (0 < len ∧ startPos cfg len = .bit 0 .green 7 .setHigh) ∨ startPos cfg len = gapStart cfg := by
  unfold startPos
  split
  · rename_i h; exact .inl ⟨h, rfl⟩
  · exact .inr rfl

/-- The symbol after a symbol: of the same colour, the first of the next colour, or the gap (R117). -/
theorem nextPos_cases (cfg : Config) (len i : Nat) (ch : Channel) (k : Fin 8) :
    (∃ ch' k', nextPos cfg len i ch k = .bit i ch' k' .setHigh) ∨
    (i + 1 < len ∧ nextPos cfg len i ch k = .bit (i + 1) .green 7 .setHigh) ∨
    nextPos cfg len i ch k = gapStart cfg := by
  obtain ⟨k, hk⟩ := k
  cases k with
  | succ j => exact .inl ⟨_, _, rfl⟩
  | zero =>
    cases ch with
    | green => exact .inl ⟨_, _, rfl⟩
    | red => exact .inl ⟨_, _, rfl⟩
    | blue =>
      by_cases h : i + 1 < len
      · exact .inr (.inl ⟨h, by simp [nextPos, h]⟩)
      · exact .inr (.inr (by simp [nextPos, h]))

@[simp] theorem gapStart_level (cfg : Config) : (gapStart cfg).level = .low := by
  obtain ⟨_, h⟩ | h := gapStart_cases cfg <;> rw [h] <;> rfl

@[simp] theorem startPos_level (cfg : Config) (len : Nat) : (startPos cfg len).level = .low := by
  obtain ⟨_, h⟩ | h := startPos_cases cfg len <;> rw [h]
  · rfl
  · exact gapStart_level cfg

@[simp] theorem nextPos_level (cfg : Config) (len i : Nat) (ch : Channel) (k : Fin 8) :
    (nextPos cfg len i ch k).level = .low := by
  obtain ⟨_, _, h⟩ | ⟨_, h⟩ | h := nextPos_cases cfg len i ch k <;> rw [h]
  · rfl
  · rfl
  · exact gapStart_level cfg

theorem gapStart_ne_bit (cfg : Config) (i : Nat) (ch : Channel) (k : Fin 8) (stg : BitStage) :
    gapStart cfg ≠ .bit i ch k stg := by
  obtain ⟨_, h⟩ | h := gapStart_cases cfg <;> simp [h]

theorem gapSetLow_of_gapStart {cfg : Config} (h : gapStart cfg = .gap .setLow) : cfg.params.gapSetLow = true := by
  obtain ⟨hg, _⟩ | hd := gapStart_cases cfg
  · exact hg
  · simp [hd] at h

/-! ### What the invariant asks of a state that stands at a position -/

/-- The invariant's clauses about SEQ, at the position `q`: R24, R28 and the operands of the WRITE. -/
structure State.Stands (s : State) (q : Pos) : Prop where
  index_in_range : ∀ i ch k stg, q = .bit i ch k stg → i < s.colors.length
  gap_opens : q = .gap .setLow → s.cfg.params.gapSetLow = true
  shreg_colour : ∀ i ch k stg col, q = .bit i ch k stg → s.colors[i]? = some col →
    (Pos.bit i ch k stg).readsColor = none → s.shreg = some (wireWord col)

theorem State.Inv.stands {s : State} {p : Pos} (hi : s.Inv) (hs : s.seq = some p) : s.Stands p where
  index_in_range := by rintro i ch k stg rfl; exact hi.index_in_range i ch k stg hs
  gap_opens := by rintro rfl; exact hi.gap_opens hs
  shreg_colour := by rintro i ch k stg col rfl; exact hi.shreg_colour i ch k stg col hs

theorem State.Stands.gapDelay (s : State) : s.Stands (.gap .delay) := by
  constructor <;> simp

theorem State.Stands.gapStart (s : State) : s.Stands (gapStart s.cfg) where
  index_in_range i ch k stg h := (gapStart_ne_bit _ i ch k stg h).elim
  gap_opens := gapSetLow_of_gapStart
  shreg_colour i ch k stg _ h := (gapStart_ne_bit _ i ch k stg h).elim

/-- Within one colour, SHREG stays loaded. -/
theorem State.Stands.sameColour {s : State} {i : Nat} {ch ch' : Channel} {k k' : Fin 8} {stg stg' : BitStage}
    (h : s.Stands (.bit i ch k stg)) (hr : (Pos.bit i ch k stg).readsColor = none) :
    s.Stands (.bit i ch' k' stg') where
  index_in_range := by rintro _ _ _ _ ⟨⟩; exact h.index_in_range i ch k stg rfl
  gap_opens := by simp
  shreg_colour := by rintro _ _ _ _ col ⟨⟩ hc -; exact h.shreg_colour i ch k stg col rfl hc hr

/-- At the first position of a colour SHREG is still to be loaded. -/
theorem State.Stands.newColour {s : State} {i : Nat} (h : i < s.colors.length) :
    s.Stands (.bit i .green 7 .setHigh) where
  index_in_range := by rintro _ _ _ _ ⟨⟩; exact h
  gap_opens := by simp
  shreg_colour := by rintro _ _ _ _ _ ⟨⟩ - hr; cases hr

theorem State.Stands.startPos (s : State) (h : s.len = s.colors.length) : s.Stands (startPos s.cfg s.len) := by
  obtain ⟨hl, hp⟩ | hp := startPos_cases s.cfg s.len <;> rw [hp]
  · exact .newColour (h ▸ hl)
  · exact .gapStart s

theorem State.Stands.nextPos {s : State} {i : Nat} {ch : Channel} {k : Fin 8} (h : s.Stands (.bit i ch k .delayLow))
    (hl : s.len = s.colors.length) : s.Stands (nextPos s.cfg s.len i ch k) := by
  obtain ⟨_, _, hp⟩ | ⟨hlt, hp⟩ | hp := nextPos_cases s.cfg s.len i ch k <;> rw [hp]
  · exact h.sameColour (readsColor_eq_none _ _ _ (by simp))
  · exact .newColour (hl ▸ hlt)
  · exact .gapStart s

/-- Reading the colour at a position loads SHREG for the rest of the symbol (R28). -/
theorem State.Stands.loadColor {s u : State} {i : Nat} {ch : Channel} {k : Fin 8} {stg stg' : BitStage}
    (h : s.Stands (.bit i ch k stg)) (hu : loadColor (.bit i ch k stg) s = .ok u) :
    u.Stands (.bit i ch k stg') := by
  obtain ⟨hr, rfl⟩ | ⟨j, col, hr, hm, rfl⟩ := loadColor_ok hu
  · exact h.sameColour hr
  · cases readsColor_eq_some hr
    refine ⟨by rintro _ _ _ _ ⟨⟩; exact h.index_in_range _ _ _ _ rfl, by simp, ?_⟩
    rintro _ _ _ _ col' ⟨⟩ hc -
    have : col = col' := Option.some.inj (hm.symm.trans hc)
    simp [this]

/-! ### The operations keep the invariant -/

theorem State.Inv.popRst {s : State} (hi : s.Inv) : s.popRst.Inv := { hi with }

theorem State.Inv.withPending {s : State} (hi : s.Inv) (pend : List OpWord) : { s with pending := pend }.Inv :=
  { hi with }

theorem State.Inv.assertReset {s : State} (hi : s.Inv) : s.assertReset.Inv := by
  constructor <;> simp [hi.cal_init_width]

/-- An event appended to the trace records a fault exactly when it is a faulted transition (R35). -/
theorem noFaultRecorded_append {s t : State} {e : Event} (h : t.trace = s.trace ++ [e]) :
    t.noFaultRecorded = (s.noFaultRecorded && !e.isFaulted) := by
  simp [State.noFaultRecorded, h]

/-- What the steps of one WRITE leave unchanged until its end. -/
structure State.SameWrite (s t : State) : Prop where
  cal : t.cal = s.cal
  mode : t.mode = s.mode
  fault : t.fault = s.fault
  rst : t.rst = s.rst
  len : t.len = s.len
  colors : t.colors = s.colors
  calInit : t.calInit = s.calInit
  cfg : t.cfg = s.cfg

/-- A WRITE that moves to a position whose operands are in place, with the line at its level, keeps the invariant. -/
theorem State.Inv.moveTo {s t : State} {q : Pos} (hi : s.Inv) (hm : s.mode = .transmitting) (hk : s.SameWrite t)
    (hq : t.seq = some q) (hst : t.Stands q) (hd : t.dcnt = none) (hl : t.line = q.level) : t.Inv := by
  have hm' : t.mode = .transmitting := hk.mode.trans hm
  constructor
  case seq_transmitting => simp [hq, hm']
  case cal_constructed => rw [hk.cal, hk.mode]; exact hi.cal_constructed
  case cal_width => rw [hk.cal, hk.cfg]; exact hi.cal_width
  case cal_init_width => rw [hk.calInit, hk.cfg]; exact hi.cal_init_width
  case index_in_range => rw [hq]; rintro _ _ _ _ ⟨⟩; exact hst.index_in_range _ _ _ _ rfl
  case gap_opens => rw [hq]; rintro ⟨⟩; exact hst.gap_opens rfl
  case len_colors => rw [hk.len, hk.colors]; exact hi.len_colors
  case shreg_colour => rw [hq]; rintro _ _ _ _ col ⟨⟩; exact hst.shreg_colour _ _ _ _ col rfl
  case outside_write => simp [hm']
  case dcnt_empty => exact hd
  case fault_clear => rw [hk.fault, hk.mode]; exact hi.fault_clear
  case absent_unknown => simp [hm']
  case rst_absent => rw [hk.rst, hk.mode]; exact hi.rst_absent
  case idle_low => simp [hm']
  case idle_not_high => simp [hm']
  case transmitting_level => rw [hq]; rintro _ - ⟨⟩; exact hl
  case level_or_unknown => rw [hq]; rintro _ ⟨⟩; exact .inl hl

/-- Past its first position, a WRITE has its line at the position's level whatever came before it. -/
theorem State.Inv.line_eq_level {s : State} {i : Nat} {ch : Channel} {k : Fin 8} {stg : BitStage} (hi : s.Inv)
    (hs : s.seq = some (.bit i ch k stg)) (hg : stg ≠ .setHigh) : s.line = (Pos.bit i ch k stg).level := by
  obtain h | ⟨_, hp⟩ := hi.level_or_unknown _ hs
  · exact h
  · obtain ⟨_, h0⟩ | h0 := startPos_cases s.cfg s.len <;> rw [h0] at hp
    · cases hp; exact absurd rfl hg
    · exact (gapStart_ne_bit _ i ch k stg hp.symm).elim

/-- A transition answered ok at a position of a WRITE (R92). -/
theorem State.Inv.transitionOk {s u : State} {p q : Pos} {l : Level} (hi : s.Inv) (hm : s.mode = .transmitting)
    (hs : s.seq = some p) (hp : p.transition = some (l, q)) (hu : loadColor p s = .ok u) :
    ({ (u.consume 1).answered l .ok with seq := some q } : State).Inv := by
  have hst : u.Stands q := by
    obtain ⟨i, ch, k, rfl, rfl⟩ | ⟨i, ch, k, rfl, rfl⟩ | ⟨rfl, rfl⟩ := transition_cases hp
    · exact (hi.stands hs).loadColor hu
    · exact (hi.stands hs).loadColor hu
    · exact .gapDelay u
  obtain ⟨x, rfl⟩ := loadColor_writes_shreg hu
  exact hi.moveTo hm (by constructor <;> rfl) rfl { hst with } hi.dcnt_empty (transition_level hp)

/-- The end of a WRITE by PinFault leaves the line Unknown, with the fault on the trace (R153). -/
theorem State.Inv.raisePinFault {s t : State} (hi : s.Inv) (hm : s.mode = .transmitting) (hk : s.SameWrite t)
    (hf : t.noFaultRecorded = false) : t.raisePinFault.Inv := by
  have hc : t.cal.isSome = true := hk.cal ▸ hi.cal_constructed.mpr (by simp [hm])
  have hf' : t.raisePinFault.noFaultRecorded = false := hf
  constructor
  case cal_width => simpa [hk.cal, hk.cfg] using hi.cal_width
  case rst_absent => simpa [hk.rst, hm] using hi.rst_absent
  all_goals simp [hc, hf', hk.calInit, hk.cfg, hi.cal_init_width]

theorem State.Inv.delayFor {s : State} (hi : s.Inv) (n : Nat) : (delayFor n s).Inv :=
  have hf : (Machine.delayFor n s).noFaultRecorded = s.noFaultRecorded := by
    rw [noFaultRecorded_append rfl]; simp [Event.isFaulted]
  { hi with
    dcnt_empty := rfl
    idle_low := by rw [hf]; exact hi.idle_low
    transmitting_level := by rw [hf]; exact hi.transmitting_level }

/-- The end of a WRITE that returns Ok leaves the line at the gap's level (R92, R98). -/
theorem State.Inv.completeWrite {s : State} (hi : s.Inv) (hs : s.seq = some (.gap .delay)) : s.completeWrite.Inv := by
  have hm : s.mode = .transmitting := hi.seq_transmitting.mp (by simp [hs])
  constructor
  case cal_constructed => simpa [hm] using hi.cal_constructed
  case cal_width =>
    simp only [completeWrite_cal, Option.map_eq_some_iff]
    rintro _ ⟨c, _, rfl⟩
    exact nextCal_lt _ c
  case rst_absent => simpa [hm] using hi.rst_absent
  case idle_low => exact fun hf _ => hi.transmitting_level _ hf hs
  case idle_not_high =>
    intro _ hh
    obtain h | ⟨h, _⟩ := hi.level_or_unknown _ hs <;> simp [h, Pos.level] at hh
  all_goals simp [hi.cal_init_width]

/-- The end of a position's DELAY (R92). -/
theorem State.Inv.afterDelay {s : State} {p : Pos} (hi : s.Inv) (hs : s.seq = some p) (hp : p.transition = none) :
    (afterDelay p s).Inv := by
  have hm : s.mode = .transmitting := hi.seq_transmitting.mp (by simp [hs])
  obtain ⟨i, ch, k, rfl⟩ | ⟨i, ch, k, rfl⟩ | rfl := delay_position_cases hp
  · have hst : s.Stands (.bit i ch k .setLow) := (hi.stands hs).sameColour (readsColor_eq_none _ _ _ (by simp))
    have hl : s.line = .high := hi.line_eq_level hs (by simp)
    exact hi.moveTo hm (by constructor <;> rfl) rfl { hst with } hi.dcnt_empty hl
  · have hst := (hi.stands hs).nextPos hi.len_colors
    have hl : s.line = .low := hi.line_eq_level hs (by simp)
    exact hi.moveTo hm (by constructor <;> rfl) rfl { hst with } hi.dcnt_empty (hl.trans (nextPos_level ..).symm)
  · exact hi.completeWrite hs

/-- CONSTRUCT, answered either way (R90). -/
theorem State.Inv.constructed {s : State} {cal : Nat} (hi : s.Inv) (hm : s.mode = .absent) (hr : s.rst = false)
    (hc : cal < 2 ^ s.cfg.params.wCal) (a : Answer) : (s.constructed cal a).Inv := by
  have hq : s.seq = none := by simpa [hm] using hi.seq_transmitting
  have hn : s.cal = none := by simpa [hm] using hi.cal_constructed
  obtain ⟨hsh, hcol⟩ := hi.outside_write (by simp [hm])
  have hlen : s.len = 0 := by rw [hi.len_colors, hcol]; rfl
  cases a <;> constructor <;>
    simp [State.constructed, hq, hn, hsh, hcol, hlen, hm, hr, hc, hi.cal_init_width, hi.dcnt_empty, Level.toLine]

/-- The start of a WRITE stands at its first position, on a line that is not High (R92). -/
theorem State.Inv.startWrite {s : State} (hi : s.Inv) (hm : s.mode = .idle) (cs : List Color) :
    (s.startWrite cs.length cs).Inv := by
  have hst : (s.startWrite cs.length cs).Stands (Machine.startPos s.cfg cs.length) := .startPos _ rfl
  constructor
  case cal_constructed => simpa [hm] using hi.cal_constructed
  case cal_width => exact hi.cal_width
  case index_in_range => exact fun i ch k stg h => hst.index_in_range i ch k stg (Option.some.inj h)
  case gap_opens => exact fun h => hst.gap_opens (Option.some.inj h)
  case shreg_colour => exact fun i ch k stg col h => hst.shreg_colour i ch k stg col (Option.some.inj h)
  case dcnt_empty => exact hi.dcnt_empty
  case rst_absent => simpa [hm] using hi.rst_absent
  case transmitting_level => rintro _ hf ⟨⟩; exact (hi.idle_low hf hm).trans (startPos_level ..).symm
  case level_or_unknown =>
    rintro _ ⟨⟩
    have hh := hi.idle_not_high hm
    cases hl : s.line <;> simp_all
  all_goals simp [hi.cal_init_width]

/-! ### Steps and runs -/

/-- Every step keeps the invariant. -/
theorem State.Inv.step {s t : State} (hi : s.Inv) (h : step s = .next t) : t.Inv := by
  obtain ⟨_, rfl⟩ | ⟨_, hm, cal, pend, hcal, rfl⟩ | ⟨_, _, hm, p, hs, hrow⟩ | ⟨_, _, _, rfl⟩ |
    ⟨_, _, hm, w, rest, cs, _, _, rfl⟩ := step_next_of_inv hi h
  · exact hi.popRst.assertReset
  · have hc : cal < 2 ^ s.cfg.params.wCal := by
      obtain ⟨_, rfl⟩ | ⟨w, rest, _, hd⟩ := hcal
      · exact hi.cal_init_width
      · exact cal_lt_of_decode hd
    have hi' : (({ s.popRst with rst := false, pending := pend } : State).consume 1).Inv :=
      { hi with rst_absent := by simp }
    exact hi'.constructed hm rfl hc _
  · obtain ⟨l, q, u, hp, hu, ⟨_, rfl⟩ | ⟨_, rfl⟩⟩ | ⟨hp, n, _, rfl⟩ := hrow
    · exact hi.popRst.transitionOk hm hs hp hu
    · obtain ⟨x, rfl⟩ := loadColor_writes_shreg hu
      refine hi.raisePinFault hm (by constructor <;> rfl) ?_
      rw [noFaultRecorded_append rfl]
      simp [Event.isFaulted]
    · exact (hi.popRst.delayFor n).afterDelay hs hp
  · exact hi.popRst
  · exact (hi.popRst.withPending rest).startWrite hm cs

/-- What every step keeps, every run keeps. -/
theorem core_run_keeps (M : Host.Core) {P : M.State → Prop} (hP : ∀ s t, P s → M.step s = .next t → P t) {n : Nat}
    {s t : M.State} (hs : P s) (h : M.run n s = .next t) : P t := by
  induction n generalizing s with
  | zero => cases h; exact hs
  | succ n ih =>
    simp only [Host.Core.run] at h
    split at h
    · rename_i u hu; exact ih (hP s u hs hu) h
    · cases h
    · cases h

theorem State.Inv.run {s t : State} {n : Nat} (hi : s.Inv) (h : runSteps n s = .next t) : t.Inv :=
  core_run_keeps Sys2Proof.core (fun _ _ hs hst => State.Inv.step hs hst) hi h

/-- What a step of a running WRITE does to MODE, LINE and the results: a reset cuts it; it goes on; it ends with Ok; or
it ends with PinFault, the line Unknown. -/
theorem step_of_transmitting {s t : State} (hi : s.Inv) (hm : s.mode = .transmitting) (h : step s = .next t) :
    (s.rstNow = true ∧ t.mode = .absent ∧ t.results = s.results) ∨
    (t.mode = .transmitting ∧ t.results = s.results) ∨
    (t.mode = .idle ∧ t.results = s.results ++ [.ok]) ∨
    (t.mode = .idle ∧ t.line = .unknown ∧ t.results = s.results ++ [.pinFault]) := by
  obtain ⟨hr, rfl⟩ | ⟨_, hm', _⟩ | ⟨_, _, _, p, hs, hrow⟩ | ⟨_, _, hm', _⟩ | ⟨_, _, hm', _⟩ := step_next_of_inv hi h
  · exact .inl ⟨hr, rfl, rfl⟩
  · simp [hm] at hm'
  · obtain ⟨l, q, u, hp, hu, ⟨_, rfl⟩ | ⟨_, rfl⟩⟩ | ⟨hp, n, _, rfl⟩ := hrow
    · obtain ⟨x, rfl⟩ := loadColor_writes_shreg hu
      exact .inr (.inl ⟨hm, rfl⟩)
    · obtain ⟨x, rfl⟩ := loadColor_writes_shreg hu
      exact .inr (.inr (.inr ⟨rfl, rfl, rfl⟩))
    · obtain ⟨i, ch, k, rfl⟩ | ⟨i, ch, k, rfl⟩ | rfl := delay_position_cases hp
      · exact .inr (.inl ⟨hm, rfl⟩)
      · exact .inr (.inl ⟨hm, rfl⟩)
      · exact .inr (.inr (.inl ⟨rfl, rfl⟩))
  · exact absurd hm hm'
  · simp [hm] at hm'

/-! ### The obligations of 10_state.md -/

/-- Settles O48: the invariant holds along the run and says the level; a PinFault's step is the abort. -/
theorem lineFollowsThePosition : Obligations.LineFollowsThePosition := by
  intro s0 s n h0 hrun
  have hi : s.Inv := h0.run hrun
  refine ⟨hi.idle_low, fun hf hm => ?_, fun t hm ht hres => ?_⟩
  · obtain ⟨p, hp⟩ := Option.isSome_iff_exists.mp (hi.seq_transmitting.mpr hm)
    refine ⟨p, hp, (hi.transmitting_level p hf hp).trans ?_⟩
    cases p with
    | bit i ch k stg => cases stg <;> rfl
    | gap stg => rfl
  · obtain ⟨_, _, h⟩ | ⟨_, h⟩ | ⟨_, h⟩ | ⟨hidle, hline, _⟩ := step_of_transmitting hi hm ht
    · simp [h] at hres
    · simp [h] at hres
    · simp [h] at hres
    · exact ⟨hidle, hline⟩

/-- Settles O49, by the cases of a step from a state that meets the invariant. -/
theorem modeMovesOnlyAsListed : Obligations.ModeMovesOnlyAsListed := by
  intro s t hi h
  obtain ⟨hr, rfl⟩ | ⟨_, hm, cal, pend, hcal, ht⟩ | ⟨_, _, hm, _⟩ | ⟨_, _, _, rfl⟩ |
    ⟨_, _, hm, w, rest, cs, hq, hd, rfl⟩ := step_next_of_inv hi h
  · exact .inr (.inr (.inr (.inr ⟨hr, rfl⟩)))
  · cases ha : s.answerAt 0 with
    | ok =>
      rw [ha] at ht
      subst ht
      refine .inr (.inl ⟨hm, rfl, rfl, rfl, ?_⟩)
      obtain ⟨hr, _⟩ | ⟨w, rest, hq, hd⟩ := hcal
      · exact .inl hr
      · exact .inr ⟨w, rest, cal, hq, hd⟩
    | fault => rw [ha] at ht; subst ht; exact .inl rfl
  · obtain ⟨hr, ha, _⟩ | ⟨hgo, _⟩ | ⟨hidle, hres⟩ | ⟨hidle, _, hres⟩ := step_of_transmitting hi hm h
    · exact .inr (.inr (.inr (.inr ⟨hr, ha⟩)))
    · exact .inl (hgo.trans hm.symm)
    · exact .inr (.inr (.inr (.inl ⟨hm, hidle, .inl hres⟩)))
    · exact .inr (.inr (.inr (.inl ⟨hm, hidle, .inr hres⟩)))
  · exact .inl rfl
  · exact .inr (.inr (.inl ⟨hm, rfl, w, rest, cs, hq, hd, rfl⟩))

/-- Settles O24: the two states are written out field by field. -/
theorem resetStateIsTheTable : Obligations.ResetStateIsTheTable :=
  ⟨⟨rfl, rfl, rfl, rfl, rfl, rfl, rfl, rfl, rfl⟩, fun _ _ => ⟨rfl, rfl, rfl, rfl, rfl, rfl⟩⟩

end Sys2Proof.Machine
end

section
/-! PROOFS. The order of the bits: the wire word, the packed colour, and the bits of a frame. -/

namespace Sys2Proof.Machine

/-! ### Three bytes in a word -/

/-- Three bytes joined, first byte on top, as a number. -/
theorem toNat_threeBytes (x y z : Byte) :
    (x ++ y ++ z).toNat = x.toNat * 65536 + y.toNat * 256 + z.toNat := by
  rw [BitVec.toNat_append, BitVec.toNat_append, ← Nat.shiftLeft_add_eq_or_of_lt z.isLt,
    ← Nat.shiftLeft_add_eq_or_of_lt y.isLt]
  simp only [Nat.shiftLeft_eq]
  omega

/-- A bit of three bytes joined is a bit of the byte it falls in. -/
theorem getLsbD_threeBytes (x y z : Byte) (i : Nat) :
    (x ++ y ++ z).getLsbD i =
      if i < 8 then z.getLsbD i else if i < 16 then y.getLsbD (i - 8) else x.getLsbD (i - 16) := by
  rw [BitVec.getLsbD_append, BitVec.getLsbD_append, Nat.sub_sub]
  by_cases h8 : i < 8
  · simp [h8]
  · by_cases h16 : i < 16 <;> simp [h8, h16, show i - 8 < 8 ↔ i < 16 by omega]

/-- The conversion swaps the two upper bytes (R71). -/
theorem rgbToWire_threeBytes (x y z : Byte) : rgbToWire (x ++ y ++ z) = y ++ x ++ z := by
  have hz : (x ++ y ++ z).extractLsb' 0 8 = z := BitVec.extractLsb'_append_eq_right
  have hy : (x ++ y ++ z).extractLsb' 8 8 = y := by
    rw [BitVec.extractLsb'_append_eq_of_le (by omega)]; exact BitVec.extractLsb'_append_eq_right
  have hx : (x ++ y ++ z).extractLsb' 16 8 = x := by
    rw [BitVec.extractLsb'_append_eq_of_le (by omega)]; exact BitVec.extractLsb'_append_eq_left
  rw [rgbToWire, hx, hy, hz]

/-! ### The bits in wire order -/

theorem getElem?_byteBits (v : Byte) {k : Nat} (h : k < 8) : (byteBits v)[k]? = some (v.getLsbD (7 - k)) := by
  interval_cases k <;> rfl

/-- The bits of a colour go out from the top of its wire word (R54): slot by slot, green first. -/
theorem getElem?_wireBits (col : Color) {m : Nat} (h : m < 24) :
    (wireBits col)[m]? = some ((wireWord col).getLsbD (23 - m)) := by
  have hl (v : Byte) : (byteBits v).length = 8 := rfl
  rw [wireBits, wireWord, getLsbD_threeBytes, List.append_assoc]
  obtain hg | ⟨hg, hr⟩ | hb : m < 8 ∨ (8 ≤ m ∧ m < 16) ∨ 16 ≤ m := by omega
  · rw [List.getElem?_append_left (by simpa [hl]), getElem?_byteBits _ hg, if_neg (by omega), if_neg (by omega)]
    congr 2; omega
  · rw [List.getElem?_append_right (by simpa [hl]), hl, List.getElem?_append_left (by rw [hl]; omega),
      getElem?_byteBits _ (by omega), if_neg (by omega), if_pos (by omega)]
    congr 2; omega
  · rw [List.getElem?_append_right (by rw [hl]; omega), hl, List.getElem?_append_right (by rw [hl]; omega), hl,
      getElem?_byteBits _ (by omega), if_pos (by omega)]
    congr 2; omega

/-- By induction on the colours: the first 24 bits are the first colour's, and the rest are the rest's. -/
theorem getElem?_frameBits (cs : List Color) (m : Nat) :
    (frameBits cs)[m]? = (cs[m / 24]?).map fun col => (wireWord col).getLsbD (23 - m % 24) := by
  induction cs generalizing m with
  | nil => rfl
  | cons col cs ih =>
    rw [frameBits_cons]
    by_cases h : m < 24
    · rw [List.getElem?_append_left h, getElem?_wireBits col h, Nat.div_eq_of_lt h, Nat.mod_eq_of_lt h]
      rfl
    · obtain ⟨n, rfl⟩ := Nat.exists_eq_add_of_le' (Nat.le_of_not_lt h)
      rw [List.getElem?_append_right (Nat.le_add_left 24 n), length_wireBits, Nat.add_sub_cancel, ih,
        Nat.add_div_right n (by omega), Nat.add_mod_right, List.getElem?_cons_succ]

/-! ### The obligation of 20_memory.md -/

/-- Settles O19: the words are three bytes joined, and the bits of a frame follow by induction on its colours. -/
theorem frameBitsInWireOrder : Obligations.FrameBitsInWireOrder :=
  ⟨fun _ => ⟨toNat_threeBytes .., toNat_threeBytes .., rgbToWire_threeBytes ..⟩, getElem?_frameBits⟩

end Sys2Proof.Machine
end

section
/-! PROOFS. How long the micro-operations last: the events each appends when every transition is answered ok, and the
sums of their DELAY arguments. -/

namespace Sys2Proof.Machine

/-! ### The micro-operations when every transition is answered ok -/

/-- A run of symbols answered ok ends without the abort. -/
theorem settle_sendBits_ok (c : Nat) {bits : List Bool} {s : State} (hne : bits ≠ [])
    (hok : AllOk (2 * bits.length) s) :
    settle (sendBits c bits s) = s.sent (2 * bits.length) (bits.flatMap (symbolEvents s.cfg c)) := by
  cases bits with
  | nil => contradiction
  | cons bit bits => exact congrArg settle (sendBits_ok c bit bits s hok)

/-- SYM1 and SYM0 (R110, R111). -/
theorem exec_symbol_ok {s : State} {c : Nat} (hc : s.cal = some c) (bit : Bool) (hok : AllOk 2 s) :
    exec (if bit then .sym1 else .sym0) s = .next (s.sent 2 (symbolEvents s.cfg c bit)) := by
  have hexec : exec (if bit then .sym1 else .sym0) s = withCal s fun c => settle (sendBit c bit s) := by
    cases bit <;> rfl
  rw [hexec, withCal_eq hc]
  obtain ⟨_, hs⟩ | ⟨hf, _⟩ | ⟨_, hf, _⟩ := sendBit_cases c bit s
  · rw [hs, settle_ok]
  · simp [hok 0 (by decide)] at hf
  · simp [hok 1 (by decide)] at hf

/-- BYTE (R112). -/
theorem exec_byte_ok {s : State} {c : Nat} (hc : s.cal = some c) (v : Byte) (hok : AllOk 16 s) :
    exec (.byte v) s = .next (s.sent 16 ((byteBits v).flatMap (symbolEvents s.cfg c))) :=
  (withCal_eq hc _).trans (congrArg _ (settle_sendBits_ok (bits := byteBits v) c (by simp [byteBits]) hok))

/-- COLOR, with SHREG loaded first (R113, R28). -/
theorem exec_color_ok {s : State} {c : Nat} (hc : s.cal = some c) (r g b : Byte) (hok : AllOk 48 s) :
    exec (.color r g b) s = .next ((s.withShreg (some (wireWord ⟨r, g, b⟩))).sent 48
      ((wireBits ⟨r, g, b⟩).flatMap (symbolEvents s.cfg c))) := by
  have hok' : AllOk 48 (s.withShreg (some (wireWord ⟨r, g, b⟩))) := (allOk_congr rfl rfl).mpr hok
  refine (withCal_eq hc _).trans (congrArg _ ?_)
  rw [sendColor_eq]
  exact settle_sendBits_ok (bits := wireBits ⟨r, g, b⟩) c (by simp [wireBits, byteBits]) hok'

/-- GAP, whether or not it opens with a SET_LOW (R114). -/
theorem exec_gap_ok {s : State} {c : Nat} (hc : s.cal = some c) (hok : AllOk 1 s) :
    ∃ t, exec .gap s = .next t ∧ t.trace = s.trace ++ gapEvents s.cfg c := by
  refine ⟨_, withCal_eq hc _, ?_⟩
  cases hg : s.cfg.params.gapSetLow <;> simp [sendGap, gapEvents, hg, pinSet_eq, hok 0 (by decide)]

/-! ### Nominal cycles -/

theorem nominalCycles_symbol (cfg : Config) (c : Nat) (bit : Bool) :
    nominalCycles (symbolEvents cfg c bit) = (cfg.params.lMult + cfg.params.sMult) * c := by
  simpa using nominalCycles_symbols cfg c [bit]

/-- The gap's transition takes no nominal cycle, so the gap lasts as long with it as without (R134). -/
theorem nominalCycles_gapEvents (cfg : Config) (c : Nat) :
    nominalCycles (gapEvents cfg c) = cfg.params.resetUnits * c := by
  cases hg : cfg.params.gapSetLow <;> simp [gapEvents, hg, nominalCycles, Event.cycles, gapCycles]

theorem highCycles_append (a b : List (Line × Nat)) : highCycles (a ++ b) = highCycles a + highCycles b := by
  simp only [highCycles, List.filter_append, List.map_append, List.sum_append]

/-- The High part of a symbol is the short duration, and for a 1 the difference to the long one besides (R118). -/
theorem hiCycles_eq (cfg : Config) (c : Nat) (bit : Bool) :
    hiCycles cfg c bit = (cfg.params.sMult + [bit].count true * (cfg.params.lMult - cfg.params.sMult)) * c := by
  obtain ⟨_, hlt, _⟩ := Config.legal_bounds cfg
  cases bit with
  | false => simp [hiCycles, shortCycles]
  | true => simp [hiCycles, longCycles, Nat.add_sub_cancel' hlt.le]

/-- By induction on the bits: each symbol adds its own High part (R118). -/
theorem highCycles_symbols (cfg : Config) (c : Nat) (bits : List Bool) (l : Line) :
    highCycles (waveform l (bits.flatMap (symbolEvents cfg c))) =
      (bits.length * cfg.params.sMult + bits.count true * (cfg.params.lMult - cfg.params.sMult)) * c := by
  rw [waveform_symbols]
  induction bits with
  | nil => simp [highCycles]
  | cons b bs ih =>
    have hone : highCycles [(.high, hiCycles cfg c b), (.low, loCycles cfg c b)] = hiCycles cfg c b := by
      simp [highCycles]
    have hcount : (b :: bs).count true = [b].count true + bs.count true := List.count_append (l₁ := [b])
    rw [List.flatMap_cons, highCycles_append, hone, hiCycles_eq, ih, hcount, List.length_cons]
    ring

/-! ### The obligation of 30_encoding.md -/

/-- Settles O17: each operation appends its symbols or its gap, whose cycles are the sums. -/
theorem durationSums : Obligations.DurationSums := by
  intro s c hc
  refine ⟨fun bit hok => ⟨_, exec_symbol_ok hc bit hok, ?_⟩, fun v hok => ⟨_, exec_byte_ok hc v hok, ?_⟩,
    fun r g b hok => ⟨_, _, exec_color_ok hc r g b hok, rfl, ?_, ?_⟩, fun hok => ?_, fun hcfg => ?_⟩
  · exact (nominalCycles_append ..).trans (congrArg _ (nominalCycles_symbol ..))
  · exact (nominalCycles_append ..).trans (congrArg _ (nominalCycles_symbols ..))
  · exact nominalCycles_symbols ..
  · exact highCycles_symbols ..
  · obtain ⟨t, ht, htr⟩ := exec_gap_ok hc hok
    exact ⟨t, ht, by rw [htr, nominalCycles_append, nominalCycles_gapEvents]⟩
  · rw [hcfg]
    exact ⟨rfl, rfl, rfl, rfl⟩

end Sys2Proof.Machine
end

section
/-! PROOFS. A running WRITE, step by step: the rows of the sequencer's table, what a step does to CAL, and how a WRITE
ends. -/

namespace Sys2Proof.Machine

/-! ### The rows of the table -/

/-- A position that issues a transition answers what follows PIN's answer, from the state with its colour loaded. -/
theorem step_transition {s u : State} {p q : Pos} {l : Level} (hr : NoReset 1 s) (hm : s.mode = .transmitting)
    (hs : s.seq = some p) (hp : p.transition = some (l, q)) (hu : loadColor p s.popRst = .ok u) :
    step s = .next (afterTransition q ((u.consume 1).answered l (s.answerAt 0), s.answerAt 0)) := by
  have ha : u.answerAt 0 = s.answerAt 0 := by
    obtain ⟨x, rfl⟩ := loadColor_writes_shreg hu; rfl
  rw [step_eq_sequencerStep hr hm hs]
  simp only [sequencerStep, hp, hu, pinSet_eq, ha]

/-- A position that issues a DELAY answers what follows its return. -/
theorem step_delay {s : State} {p : Pos} {n : Nat} (hr : NoReset 1 s) (hm : s.mode = .transmitting)
    (hs : s.seq = some p) (hp : p.transition = none) (hn : delayArgument p s = .ok n) :
    step s = .next (afterDelay p (delayFor n s.popRst)) := by
  rw [step_eq_sequencerStep hr hm hs]
  simp only [sequencerStep, hp, show delayArgument p s.popRst = .ok n from hn]

/-- The positions of a slot but the first of a colour read no colour (R56). -/
theorem readsColor_setHigh_eq_none {i : Nat} {ch : Channel} {k : Fin 8} (h : ¬(ch = .green ∧ k = 7)) :
    (Pos.bit i ch k .setHigh).readsColor = none := by
  cases hj : (Pos.bit i ch k .setHigh).readsColor with
  | none => rfl
  | some j => cases readsColor_eq_some hj; exact absurd ⟨rfl, rfl⟩ h

/-- The colour is read at `Bit(i, 0, 7, SH)`, and at no other position (R92). -/
theorem loadColor_setHigh {s : State} {i : Nat} {col : Color} (ch : Channel) (k : Fin 8)
    (hcol : s.colors[i]? = some col) :
    loadColor (.bit i ch k .setHigh) s =
      .ok (s.withShreg (if ch = .green ∧ k = 7 then some (wireWord col) else s.shreg)) := by
  by_cases h : ch = .green ∧ k = 7
  · obtain ⟨rfl, rfl⟩ := h
    simp [loadColor, Pos.readsColor, memRead, hcol, State.withShreg]
  · simp [loadColor, readsColor_setHigh_eq_none h, h, State.withShreg]

/-- A position that reads no colour leaves the state as it is. -/
theorem loadColor_of_readsNone {p : Pos} {s : State} (h : p.readsColor = none) : loadColor p s = .ok s := by
  simp only [loadColor, h]

/-- The DELAYs of a symbol take their bit from SHREG, which holds the wire word of the colour (R28, R92). -/
theorem delayArgument_symbol {s : State} {c i : Nat} {ch : Channel} {k : Fin 8} {w : Word24} (hc : s.cal = some c)
    (hw : s.shreg = some w) :
    delayArgument (.bit i ch k .delayHigh) s = .ok (hiCycles s.cfg c (wireBit w ch k)) ∧
      delayArgument (.bit i ch k .delayLow) s = .ok (loCycles s.cfg c (wireBit w ch k)) := by
  simp [delayArgument, hc, bitAt, hw, Except.map]

theorem delayArgument_gap {s : State} {c : Nat} (hc : s.cal = some c) :
    delayArgument (.gap .delay) s = .ok (gapCycles s.cfg c) := by
  simp only [delayArgument, hc]

/-- `next(i, ch, k)` as R117 writes it. -/
theorem nextPos_eq (cfg : Config) (len i : Nat) (ch : Channel) (k : Fin 8) :
    nextPos cfg len i ch k =
      if h : 0 < k.val then .bit i ch ⟨k.val - 1, by omega⟩ .setHigh
      else match ch with
        | .green => .bit i .red 7 .setHigh
        | .red => .bit i .blue 7 .setHigh
        | .blue => if i + 1 < len then .bit (i + 1) .green 7 .setHigh
          else if cfg.params.gapSetLow then .gap .setLow else .gap .delay := by
  obtain ⟨k, hk⟩ := k
  cases k with
  | succ j => rfl
  | zero => cases ch <;> rfl

/-- Settles O27: each row is the step of a transition or of a DELAY. -/
theorem sequencerFollowsItsTable : Obligations.SequencerFollowsItsTable := by
  refine ⟨fun s cs hm => execWrite_idle hm, fun s c hr hm hc => ⟨?_, ?_, ?_, ?_, ?_, ?_⟩⟩
  · intro i ch k col hs hcol
    rw [step_transition hr hm hs rfl (loadColor_setHigh ch k hcol)]
    cases s.answerAt 0 <;> rfl
  · intro i ch k col hi hs hcol
    have hw := hi.shreg_colour i ch k _ col hs hcol (readsColor_eq_none _ _ _ (by simp))
    exact step_delay hr hm hs rfl (delayArgument_symbol hc hw).1
  · intro i ch k hs
    rw [step_transition hr hm hs rfl (loadColor_of_readsNone (readsColor_eq_none _ _ _ (by simp)))]
    cases s.answerAt 0 <;> rfl
  · intro i ch k col hi hs hcol
    have hw := hi.shreg_colour i ch k _ col hs hcol (readsColor_eq_none _ _ _ (by simp))
    rw [step_delay hr hm hs rfl (delayArgument_symbol hc hw).2]
    simp only [afterDelay, nextPos_eq]
    rfl
  · intro hs
    rw [step_transition hr hm hs rfl (loadColor_of_readsNone rfl)]
    cases s.answerAt 0 <;> rfl
  · intro hs
    rw [step_delay hr hm hs rfl (delayArgument_gap hc)]
    simp [afterDelay, State.completeWrite, State.endWrite, delayFor, State.popRst, hc, nextCal, gapCycles]

/-! ### CAL, and how a WRITE ends -/

/-- Settles O29: the gap's DELAY completes the WRITE, and no other row writes CAL. -/
theorem calStepsOnlyAfterOk : Obligations.CalStepsOnlyAfterOk := by
  refine ⟨fun s c hr hm hs hc hlt => ?_, fun s t hr hm hs hne h => ?_⟩
  · refine ⟨_, _, step_delay hr hm hs rfl (delayArgument_gap hc), congrArg (Option.map (nextCal s.cfg)) hc, rfl, ?_,
      rfl, rfl⟩
    intro h0
    rw [nextCal, h0, Nat.add_zero, Nat.mod_eq_of_lt hlt]
  · obtain ⟨p, hp⟩ := Option.isSome_iff_exists.mp hs
    rw [step_eq_sequencerStep hr hm hp] at h
    obtain ⟨l, q, u, _, hu, ⟨_, rfl⟩ | ⟨_, rfl⟩⟩ | ⟨hd, n, _, rfl⟩ := sequencerStep_next h
    · obtain ⟨x, rfl⟩ := loadColor_writes_shreg hu; rfl
    · obtain ⟨x, rfl⟩ := loadColor_writes_shreg hu; rfl
    · obtain ⟨i, ch, k, rfl⟩ | ⟨i, ch, k, rfl⟩ | rfl := delay_position_cases hd
      · rfl
      · rfl
      · exact absurd hp hne

/-- Settles O42, by the cases of a step from a state that meets the invariant. -/
theorem writeEndsOnlyByItsLastStepOrPinFault : Obligations.WriteEndsOnlyByItsLastStepOrPinFault := by
  intro s t p hi hm hs h
  obtain ⟨hr, rfl⟩ | ⟨_, hm', _⟩ | ⟨_, _, _, p', hs', hrow⟩ | ⟨_, _, hm', _⟩ |
    ⟨_, _, hm', _⟩ := step_next_of_inv hi h
  · exact .inr (.inr (.inr ⟨hr, rfl, rfl⟩))
  · simp [hm] at hm'
  · cases Option.some.inj (hs.symm.trans hs')
    obtain ⟨l, q, u, hp, hu, ⟨_, rfl⟩ | ⟨ha, rfl⟩⟩ | ⟨hp, n, _, rfl⟩ := hrow
    · obtain ⟨x, rfl⟩ := loadColor_writes_shreg hu
      exact .inl hm
    · obtain ⟨x, rfl⟩ := loadColor_writes_shreg hu
      exact .inr (.inr (.inl ⟨ha, ⟨l, q, hp⟩, rfl, rfl⟩))
    · obtain ⟨i, ch, k, rfl⟩ | ⟨i, ch, k, rfl⟩ | rfl := delay_position_cases hp
      · exact .inl hm
      · exact .inl hm
      · exact .inr (.inl ⟨rfl, rfl, rfl⟩)
  · exact absurd hm hm'
  · simp [hm] at hm'

end Sys2Proof.Machine
end

section
/-! PROOFS. The sequencer and the big step of WRITE (R103): the symbols of a channel, the colour, the colours and the
gap, each followed by the sequencer's run; and what a WRITE answered ok has done. -/

namespace Sys2Proof.Machine

/-! ### The sends under another SEQ -/

theorem sendColor_withSeq (c : Nat) (col : Color) (s : State) (x : Option Pos) :
    sendColor c col (s.withSeq x) = ((sendColor c col s).1.withSeq x, (sendColor c col s).2) := by
  rw [sendColor_eq, sendColor_eq]
  exact sendBits_withSeq c (wireBits col) (s.withShreg (some (wireWord col))) x

theorem sendColors_withSeq (c : Nat) (cs : List Color) (s : State) (x : Option Pos) :
    sendColors c cs (s.withSeq x) = ((sendColors c cs s).1.withSeq x, (sendColors c cs s).2) := by
  induction cs generalizing s with
  | nil => rfl
  | cons col cols ih =>
    rw [sendColors, sendColors, sendColor_withSeq]
    rcases sendColor c col s with ⟨u, a⟩
    cases a
    · exact ih u
    · rfl

/-- A colour keeps what symbols keep, but for SHREG, which it loads (R28). -/
theorem keeps_color (c : Nat) (col : Color) (s : State) :
    Keeps (s.withShreg (some (wireWord col))) (sendColor c col s).1 := by
  rw [sendColor_eq]
  exact keeps_bits c (wireBits col) (s.withShreg (some (wireWord col)))

/-! ### The symbols of a channel, and of a colour -/

/-- The bits of a wire word that a channel slot sends from bit `k` down. -/
def bitsFrom (w : Word24) (ch : Channel) : (k : Nat) → k < 8 → List Bool
  | 0, h => [wireBit w ch ⟨0, h⟩]
  | k + 1, h => wireBit w ch ⟨k + 1, h⟩ :: bitsFrom w ch k (Nat.lt_of_succ_lt h)

/-- The value of a channel slot of a colour. -/
def Channel.valueOf : Channel → Color → Byte
  | .green, col => col.g
  | .red, col => col.r
  | .blue, col => col.b

/-- A channel slot holds its own byte of the wire word (R28, R54). -/
theorem wireBit_wireWord (col : Color) (ch : Channel) (k : Fin 8) :
    wireBit (wireWord col) ch k = (ch.valueOf col).getLsbD k.val := by
  have hk := k.isLt
  cases ch <;> simp only [wireBit, wireWord, getLsbD_threeBytes, Channel.valueOf, Channel.slot]
  · rw [if_neg (by omega), if_neg (by omega)]; congr 1; omega
  · rw [if_neg (by omega), if_pos (by omega)]; congr 1; omega
  · rw [if_pos (by omega)]; congr 1; omega

theorem bitsFrom_wireWord (col : Color) (ch : Channel) :
    bitsFrom (wireWord col) ch 7 (by decide) = byteBits (ch.valueOf col) := by
  simp only [bitsFrom, wireBit_wireWord, byteBits]

/-- The run goes on with more symbols, from a state that keeps what symbols keep. -/
theorem Follows.sendBits_append {c : Nat} {s s' : State} {a b : List Bool} {q q' : Pos}
    (h : Follows s (sendBits c a s') q)
    (g : ∀ u, Keeps s' u → Follows (u.withSeq (some q)) (sendBits c b (u.withSeq (some q))) q') :
    Follows s (sendBits c (a ++ b) s') q' := by
  rw [Machine.sendBits_append]
  exact h.andThen (sendBits_withSeq c b _) fun _ => g _ (keeps_bits c a s')

theorem sendBits_singleton (c : Nat) (b : Bool) (s : State) : sendBits c [b] s = sendBit c b s := by
  simp only [sendBits]
  rcases sendBit c b s with ⟨u, a⟩
  cases a <;> rfl

/-- A WRITE of `len` colours that runs at the calibration constant `c`, with the wire word `w` in SHREG. -/
structure State.Sends (s : State) (cfg : Config) (len c : Nat) (w : Word24) : Prop where
  mode : s.mode = .transmitting
  cal : s.cal = some c
  shreg : s.shreg = some w
  cfg : s.cfg = cfg
  len : s.len = len

theorem State.Sends.keeps {s u : State} {cfg : Config} {len c : Nat} {w : Word24} (h : s.Sends cfg len c w)
    (hk : Keeps s u) (x : Option Pos) : (u.withSeq x).Sends cfg len c w :=
  ⟨hk.mode.trans h.mode, hk.cal.trans h.cal, hk.shreg.trans h.shreg, hk.cfg.trans h.cfg, hk.len.trans h.len⟩

/-- A symbol whose wire word SHREG holds already: it is not the first of its colour. -/
theorem State.Sends.follows_sendBit {s : State} {cfg : Config} {len c i : Nat} {w : Word24} {ch : Channel} {k : Fin 8}
    (h : s.Sends cfg len c w) (hs : s.seq = some (.bit i ch k .setHigh))
    (hr : ch = .green → k.val ≠ 7) :
    Follows s (sendBits c [wireBit w ch k] s) (nextPos cfg len i ch k) := by
  have hself : s.withShreg (some w) = s := by rw [← h.shreg]; rfl
  have hl : loadColor (.bit i ch k .setHigh) s = .ok (s.withShreg (some w)) := by
    rw [hself]
    exact loadColor_of_readsNone (readsColor_setHigh_eq_none fun ⟨hg, h7⟩ => hr hg (Fin.ext_iff.mp h7))
  have hf := Machine.follows_sendBit h.mode h.cal hs hl
  rwa [hself, h.cfg, h.len, ← sendBits_singleton] at hf

/-- The bits of a colour, by the slots' positions: the one that reads the colour, and the rest. -/
theorem wireBits_eq_bitsFrom (col : Color) :
    wireBits col = [wireBit (wireWord col) .green 7] ++ (bitsFrom (wireWord col) .green 6 (by decide) ++
      (bitsFrom (wireWord col) .red 7 (by decide) ++ bitsFrom (wireWord col) .blue 7 (by decide))) := by
  have hslots : wireBits col = bitsFrom (wireWord col) .green 7 (by decide) ++
      bitsFrom (wireWord col) .red 7 (by decide) ++ bitsFrom (wireWord col) .blue 7 (by decide) := by
    simp only [bitsFrom_wireWord]; rfl
  exact hslots

/-- The symbols of a channel slot from bit `k` down, by induction on `k`: `next` moves to the next lower bit (R117). -/
theorem State.Sends.follows_bitsFrom {s : State} {cfg : Config} {len c i : Nat} {w : Word24} {ch : Channel} (k : Nat)
    (hk : k < 8) (h : s.Sends cfg len c w) (hs : s.seq = some (.bit i ch ⟨k, hk⟩ .setHigh))
    (hr : ch = .green → k ≠ 7) :
    Follows s (sendBits c (bitsFrom w ch k hk) s) (nextPos cfg len i ch 0) := by
  induction k generalizing s with
  | zero => exact h.follows_sendBit hs hr
  | succ k ih =>
    refine (h.follows_sendBit hs hr).sendBits_append (b := bitsFrom w ch k _) fun u hu => ?_
    exact ih _ (h.keeps hu _) rfl (by omega)

/-- 96 steps of the sequencer from the first position of a colour are the colour: its first symbol loads SHREG, then the
rest of its green slot, its red slot and its blue slot follow (R113, R117). -/
theorem follows_sendColor {c i : Nat} {s : State} {col : Color} (hm : s.mode = .transmitting) (hc : s.cal = some c)
    (hs : s.seq = some (.bit i .green 7 .setHigh)) (hcol : s.colors[i]? = some col) :
    Follows s (sendColor c col s) (nextPos s.cfg s.len i .blue 0) := by
  have hl : loadColor (.bit i .green 7 .setHigh) s = .ok (s.withShreg (some (wireWord col))) :=
    loadColor_setHigh .green 7 hcol
  have h : (s.withShreg (some (wireWord col))).Sends s.cfg s.len c (wireWord col) := ⟨hm, hc, rfl, rfl, rfl⟩
  have hfirst := follows_sendBit hm hc hs hl
  rw [← sendBits_singleton] at hfirst
  rw [sendColor_eq, wireBits_eq_bitsFrom]
  refine hfirst.sendBits_append fun u hu => ?_
  have hu' := h.keeps hu (some (.bit i .green 6 .setHigh))
  refine (hu'.follows_bitsFrom 6 _ rfl (by simp)).sendBits_append fun v hv => ?_
  have hv' := hu'.keeps hv (some (.bit i .red 7 .setHigh))
  refine (hv'.follows_bitsFrom 7 _ rfl (by simp)).sendBits_append fun x hx => ?_
  exact (hv'.keeps hx (some (.bit i .blue 7 .setHigh))).follows_bitsFrom 7 _ rfl (by simp)

/-! ### The colours -/

/-- Where a WRITE of `len` colours stands before colour `i`: at its first position, or at the gap after the last. -/
def colorPos (cfg : Config) (len i : Nat) : Pos :=
  if i < len then .bit i .green 7 .setHigh else gapStart cfg

theorem colorPos_zero (cfg : Config) (len : Nat) : colorPos cfg len 0 = startPos cfg len := rfl

/-- `next` after the last symbol of a colour (R117). -/
theorem nextPos_blue_zero (cfg : Config) (len i : Nat) : nextPos cfg len i .blue 0 = colorPos cfg len (i + 1) := rfl

/-- The colours are the bits of their frame; of the rest they leave SHREG alone loaded. -/
theorem sendColors_eq (c : Nat) (cs : List Color) (s : State) :
    ∃ x, sendColors c cs s = ((sendBits c (frameBits cs) s).1.withShreg x, (sendBits c (frameBits cs) s).2) := by
  induction cs generalizing s with
  | nil => exact ⟨s.shreg, rfl⟩
  | cons col cols ih =>
    have hcol : sendColor c col s = ((sendBits c (wireBits col) s).1.withShreg (some (wireWord col)),
        (sendBits c (wireBits col) s).2) := by
      rw [sendColor_eq]; exact sendBits_withShreg c (wireBits col) s _
    rw [sendColors, hcol, frameBits_cons, sendBits_append]
    rcases sendBits c (wireBits col) s with ⟨u, a⟩
    cases a with
    | ok =>
      obtain ⟨x, hx⟩ := ih (u.withShreg (some (wireWord col)))
      refine ⟨x, ?_⟩
      rw [andThen_ok, andThen_ok, hx, sendBits_withShreg]
      rfl
    | fault => exact ⟨_, rfl⟩

theorem keeps_colors (c : Nat) (cs : List Color) (s : State) :
    ∃ x, Keeps (s.withShreg x) (sendColors c cs s).1 := by
  obtain ⟨x, hx⟩ := sendColors_eq c cs s
  have hk := keeps_bits c (frameBits cs) (s.withShreg x)
  rw [sendBits_withShreg] at hk
  exact ⟨x, by rw [hx]; exact hk⟩

/-- The colours from index `i` on, by induction on them: each ends at the position before the next (R117). -/
theorem follows_sendColors {cfg : Config} {colors : List Color} {c i : Nat} {s : State} {cs : List Color}
    (hm : s.mode = .transmitting) (hc : s.cal = some c) (hcfg : s.cfg = cfg) (hcolors : s.colors = colors)
    (hlen : s.len = colors.length) (hcs : colors.drop i = cs) (hs : s.seq = some (colorPos cfg colors.length i)) :
    Follows s (sendColors c cs s) (gapStart cfg) := by
  induction cs generalizing s i with
  | nil =>
    rw [colorPos, if_neg (Nat.not_lt.mpr (List.drop_eq_nil_iff.mp hcs))] at hs
    have hself : s.withSeq (some (gapStart cfg)) = s := by rw [← hs]; rfl
    exact ⟨Nat.le_refl _, by simpa [sendColors, hself] using RunsTo.refl s⟩
  | cons col cols ih =>
    have hcol : colors[i]? = some col := by rw [← List.head?_drop, hcs, List.head?_cons]
    have hcols : colors.drop (i + 1) = cols := by rw [← List.tail_drop, hcs, List.tail_cons]
    rw [colorPos, if_pos (List.getElem?_eq_some_iff.mp hcol).1] at hs
    have hfirst := follows_sendColor hm hc hs (hcolors ▸ hcol)
    rw [nextPos_blue_zero, hcfg, hlen] at hfirst
    refine hfirst.andThen (sendColors_withSeq c cols _) fun _ => ?_
    have hk := keeps_color c col s
    exact ih (hk.mode.trans hm) (hk.cal.trans hc) (hk.cfg.trans hcfg) (hk.colors.trans hcolors) (hk.len.trans hlen)
      hcols rfl

/-! ### The gap, and the end of the WRITE -/

theorem finishWrite_withSeq (r : State × Answer) (x : Option Pos) :
    finishWrite (r.1.withSeq x, r.2) = finishWrite r := by
  obtain ⟨u, a⟩ := r
  cases a <;> rfl

theorem finishWrite_withShreg (r : State × Answer) (x : Option Word24) :
    finishWrite (r.1.withShreg x, r.2) = finishWrite r := by
  obtain ⟨u, a⟩ := r
  cases a <;> rfl

@[simp] theorem finishWrite_trace (r : State × Answer) : (finishWrite r).trace = r.1.trace := by
  obtain ⟨u, a⟩ := r
  cases a <;> rfl

@[simp] theorem finishWrite_rst (r : State × Answer) : (finishWrite r).rst = r.1.rst := by
  obtain ⟨u, a⟩ := r
  cases a <;> rfl

/-- The run from `s` ends in `t`, in as many steps as `t` has events more. -/
def EndsIn (s t : State) : Prop :=
  s.trace.length ≤ t.trace.length ∧ RunsTo (t.trace.length - s.trace.length) s t

/-- A run that goes on to the end of the WRITE. -/
theorem Follows.finish {s : State} {r : State × Answer} {q : Pos} {f : State → State × Answer} (h : Follows s r q)
    (hf : ∀ x, f (r.1.withSeq x) = ((f r.1).1.withSeq x, (f r.1).2))
    (g : r.2 = .ok → EndsIn (r.1.withSeq (some q)) (finishWrite (f (r.1.withSeq (some q))))) :
    EndsIn s (finishWrite (Machine.andThen r f)) := by
  obtain ⟨u, a⟩ := r
  cases a with
  | fault => exact h
  | ok =>
    have hu : s.trace.length ≤ u.trace.length := h.1
    have hrest := g rfl
    rw [hf, finishWrite_withSeq] at hrest
    have hv : u.trace.length ≤ (finishWrite (f u)).trace.length := hrest.1
    refine ⟨hu.trans hv, ?_⟩
    rw [andThen_ok, show (finishWrite (f u)).trace.length - s.trace.length =
      (u.trace.length - s.trace.length) + ((finishWrite (f u)).trace.length - u.trace.length) by omega]
    exact h.2.trans hrest.2

/-- A transition at a position that reads no colour. -/
theorem follows_transition {s : State} {p q : Pos} {l : Level} (hm : s.mode = .transmitting) (hs : s.seq = some p)
    (hp : p.transition = some (l, q)) (hr : p.readsColor = none) : Follows s (pinSet l s) q := by
  have hstep : sequencerStep p s = .next (afterTransition q (pinSet l s)) := by
    simp only [sequencerStep, hp, loadColor_of_readsNone hr]
  have hrun := runsTo_one hm hs hstep
  rw [pinSet_eq] at hrun ⊢
  cases ha : s.answerAt 0 <;> rw [ha] at hrun <;>
    exact ⟨by simp, by simpa [afterTransition, State.withSeq] using hrun⟩

/-- The gap's DELAY ends the WRITE (R92). -/
theorem endsIn_gapDelay {c : Nat} {s : State} (hm : s.mode = .transmitting) (hc : s.cal = some c)
    (hs : s.seq = some (.gap .delay)) : EndsIn s (delayFor (gapCycles s.cfg c) s).completeWrite := by
  have hstep : sequencerStep (.gap .delay) s = .next (delayFor (gapCycles s.cfg c) s).completeWrite := by
    simp only [sequencerStep, Pos.transition, delayArgument_gap hc]; rfl
  exact ⟨by simp, by simpa using runsTo_one hm hs hstep⟩

/-- The gap, with or without its SET_LOW (R114). -/
theorem endsIn_sendGap {c : Nat} {s : State} (hm : s.mode = .transmitting) (hc : s.cal = some c)
    (hs : s.seq = some (gapStart s.cfg)) : EndsIn s (finishWrite (sendGap c s)) := by
  unfold sendGap
  split
  · rename_i hg
    refine (follows_transition (q := .gap .delay) hm (by simpa [gapStart, hg] using hs) rfl rfl).finish
      (fun _ => rfl) fun _ => ?_
    exact endsIn_gapDelay (s := (pinSet .low s).1.withSeq _) hm hc rfl
  · rename_i hg
    exact endsIn_gapDelay hm hc (by simpa [gapStart, hg] using hs)

/-- The frame keeps what its colours keep. -/
theorem keeps_frame (c : Nat) (cs : List Color) (s : State) : ∃ x, Keeps (s.withShreg x) (sendFrame c cs s).1 := by
  obtain ⟨x, hk⟩ := keeps_colors c cs s
  unfold sendFrame
  rcases hr : sendColors c cs s with ⟨u, a⟩
  rw [hr] at hk
  cases a with
  | ok => exact ⟨x, hk.trans (keeps_gap c u)⟩
  | fault => exact ⟨x, hk⟩

/-- The sequencer from the start of a WRITE ends where the big step does. -/
theorem endsIn_writeWhole {c : Nat} {s : State} (hc : s.cal = some c) (cs : List Color) :
    EndsIn (s.startWrite cs.length cs) (writeWhole c cs s) := by
  obtain ⟨x, hk⟩ := keeps_colors c cs (s.startWrite cs.length cs)
  have hf := follows_sendColors (i := 0) (s := s.startWrite cs.length cs) rfl hc rfl rfl rfl rfl
    (congrArg some (colorPos_zero s.cfg cs.length).symm)
  refine hf.finish (sendGap_withSeq c _) fun _ => ?_
  exact endsIn_sendGap hk.mode (hk.cal.trans hc) (congrArg (some <| gapStart ·) hk.cfg.symm)

/-- Settles O31: the sequencer follows each symbol, each colour and the gap of the big step to the end of the WRITE. -/
theorem sequencerIsTheBigStep : Obligations.SequencerIsTheBigStep := by
  intro s c cs hm hc w n hn
  obtain ⟨x, hk⟩ := keeps_frame c cs (s.startWrite cs.length cs)
  have hrst : w.rst = false := (finishWrite_rst _).trans (hk.rst.trans hn.1)
  have hrun := (endsIn_writeWhole hc cs).2.run (s := s.startWrite cs.length cs) hn
  rwa [← hrst] at hrun

end Sys2Proof.Machine
end

section
/-! PROOFS. What a WRITE has done when every transition is answered ok: its events, their counts and their nominal
cycles; and the WRITE of no colours. -/

namespace Sys2Proof.Machine

/-! ### The big step when every transition is answered ok -/

/-- The state once the events `es`, `n` of them transitions, are issued and the last of them is a DELAY. -/
def State.emitted (s : State) (n : Nat) (es : List Event) : State :=
  { s.consume n with line := lineAfter s.line es, dcnt := none, trace := s.trace ++ es }

theorem emitted_emitted (s : State) (m n : Nat) (es fs : List Event) :
    (s.emitted m es).emitted n fs = s.emitted (m + n) (es ++ fs) := by
  have h := consume_consume s m n
  simp only [State.emitted, State.consume, State.mk.injEq, List.append_assoc, lineAfter_append] at h ⊢
  simp_all

/-- Symbols answered ok leave the line as their events do. -/
theorem sendBits_eq_emitted (c : Nat) {bits : List Bool} {s : State} (hne : bits ≠ [])
    (hok : AllOk (2 * bits.length) s) :
    sendBits c bits s = (s.emitted (2 * bits.length) (bits.flatMap (symbolEvents s.cfg c)), .ok) := by
  have hline : lineAfter s.line (bits.flatMap (symbolEvents s.cfg c)) = .low := by
    rw [lineAfter_symbols, if_neg hne]
  rw [State.emitted, hline]
  cases bits with
  | nil => contradiction
  | cons bit bits => exact sendBits_ok c bit bits s hok

theorem sendGap_eq_emitted (c : Nat) {s : State} (hok : AllOk (gapTransitions s.cfg) s) :
    sendGap c s = (s.emitted (gapTransitions s.cfg) (gapEvents s.cfg c), .ok) := by
  cases hg : s.cfg.params.gapSetLow with
  | false => simp [sendGap, gapTransitions, gapEvents, hg, State.emitted, delayFor, lineAfter]
  | true =>
    have h0 : s.answerAt 0 = .ok := hok 0 (by simp [gapTransitions, hg])
    simp [sendGap, gapTransitions, gapEvents, hg, State.emitted, pinSet_eq, h0, delayFor, State.answered, lineAfter,
      Level.toLine]

/-- The frame: its symbols, if there are any, and the gap. -/
theorem sendFrameBits_eq_emitted (c : Nat) (cs : List Color) {s : State}
    (hok : AllOk (transitionCount s.cfg cs.length) s) :
    andThen (sendBits c (frameBits cs) s) (sendGap c) =
      (s.emitted (transitionCount s.cfg cs.length) (frameEvents s.cfg c cs), .ok) := by
  have hlen : 2 * (frameBits cs).length = 48 * cs.length := by rw [length_frameBits]; omega
  cases cs with
  | nil =>
    have hgap := sendGap_eq_emitted c (allOk_mono (Nat.le_add_left _ _) hok)
    simpa [frameBits, sendBits, frameEvents, transitionCount] using hgap
  | cons col cols =>
    have hne : frameBits (col :: cols) ≠ [] := by simp [frameBits_cons, wireBits, byteBits]
    have hgap : AllOk (gapTransitions s.cfg) (s.emitted (2 * (frameBits (col :: cols)).length)
        ((frameBits (col :: cols)).flatMap (symbolEvents s.cfg c))) :=
      (allOk_congr (s := s.consume _) rfl rfl).mpr (allOk_consume (hlen ▸ hok))
    rw [sendBits_eq_emitted c hne (hlen ▸ allOk_mono (Nat.le_add_right _ _) hok), andThen_ok,
      sendGap_eq_emitted c hgap, emitted_emitted, hlen]
    rfl

/-- The big step by the bits of its frame: the end of a WRITE forgets SHREG. -/
theorem writeWhole_eq_bits (c : Nat) (cs : List Color) (s : State) :
    writeWhole c cs s =
      finishWrite (andThen (sendBits c (frameBits cs) (s.startWrite cs.length cs)) (sendGap c)) := by
  obtain ⟨x, hx⟩ := sendColors_eq c cs (s.startWrite cs.length cs)
  rw [writeWhole, sendFrame, hx]
  rcases sendBits c (frameBits cs) (s.startWrite cs.length cs) with ⟨u, a⟩
  cases a with
  | fault => rfl
  | ok => rw [andThen_ok, andThen_ok, sendGap_withShreg, finishWrite_withShreg]

/-- A WRITE whose transitions are all answered ok issues its frame and returns Ok (R91). -/
theorem writeWhole_ok (c : Nat) (cs : List Color) {s : State} (hok : AllOk (transitionCount s.cfg cs.length) s) :
    writeWhole c cs s = ((s.startWrite cs.length cs).emitted (transitionCount s.cfg cs.length)
      (frameEvents s.cfg c cs)).completeWrite := by
  have hframe := sendFrameBits_eq_emitted c cs (s := s.startWrite cs.length cs) hok
  rw [writeWhole_eq_bits, hframe]
  rfl

theorem length_gapEvents (cfg : Config) (c : Nat) : (gapEvents cfg c).length = 1 + gapTransitions cfg := by
  cases hg : cfg.params.gapSetLow <;> simp [gapEvents, gapTransitions, hg]

theorem length_frameEvents (cfg : Config) (c : Nat) (cs : List Color) :
    (frameEvents cfg c cs).length = eventCount cfg cs.length := by
  rw [frameEvents, List.length_append, length_symbols, length_frameBits, length_gapEvents, eventCount]
  omega

/-- The sequencer's run to the end of the WRITE, for a known number of events of the big step. -/
theorem runSteps_startWrite {s : State} {c n : Nat} {cs : List Color} (hm : s.mode = .idle) (hc : s.cal = some c)
    (hlen : (writeWhole c cs s).trace.length = s.trace.length + n) (hn : NoReset n s) :
    runSteps n (s.startWrite cs.length cs) = .next { writeWhole c cs s with rstIn := s.rstIn.drop n } := by
  obtain rfl : n = (writeWhole c cs s).trace.length - s.trace.length := by omega
  exact sequencerIsTheBigStep s c cs hm hc hn

/-- The run of a WRITE whose transitions are all answered ok. -/
theorem runSteps_startWrite_ok {s : State} {c : Nat} {cs : List Color} (hm : s.mode = .idle) (hc : s.cal = some c)
    (hn : NoReset (eventCount s.cfg cs.length) s) (hok : AllOk (transitionCount s.cfg cs.length) s) :
    runSteps (eventCount s.cfg cs.length) (s.startWrite cs.length cs) = .next
      { ((s.startWrite cs.length cs).emitted (transitionCount s.cfg cs.length)
          (frameEvents s.cfg c cs)).completeWrite with
        rstIn := s.rstIn.drop (eventCount s.cfg cs.length) } := by
  have hlen : (writeWhole c cs s).trace.length = s.trace.length + eventCount s.cfg cs.length := by
    rw [writeWhole_ok c cs hok]
    exact List.length_append.trans (congrArg _ (length_frameEvents s.cfg c cs))
  rw [runSteps_startWrite hm hc hlen hn, writeWhole_ok c cs hok]

/-! ### Counts -/

theorem countP_isTransition_symbols (cfg : Config) (c : Nat) (bits : List Bool) :
    (bits.flatMap (symbolEvents cfg c)).countP Event.isTransition = 2 * bits.length := by
  induction bits with
  | nil => rfl
  | cons b bs ih =>
    rw [List.flatMap_cons, List.countP_append, ih, List.length_cons, Nat.mul_succ, Nat.add_comm]
    rfl

theorem countP_isTransition_gapEvents (cfg : Config) (c : Nat) :
    (gapEvents cfg c).countP Event.isTransition = gapTransitions cfg := by
  cases hg : cfg.params.gapSetLow <;> rw [gapEvents, gapTransitions, hg] <;> rfl

/-- Transitions of the frame (R95). -/
theorem countP_isTransition_frameEvents (cfg : Config) (c : Nat) (cs : List Color) :
    (frameEvents cfg c cs).countP Event.isTransition = transitionCount cfg cs.length := by
  rw [frameEvents, List.countP_append, countP_isTransition_symbols, countP_isTransition_gapEvents, length_frameBits,
    transitionCount]
  omega

/-- DELAYs of the frame (R95): the events that are no transitions. -/
theorem countP_not_isTransition_frameEvents (cfg : Config) (c : Nat) (cs : List Color) :
    ((frameEvents cfg c cs).countP fun e => !e.isTransition) = 48 * cs.length + 1 := by
  have h := List.length_eq_countP_add_countP Event.isTransition (l := frameEvents cfg c cs)
  rw [length_frameEvents, countP_isTransition_frameEvents, eventCount, transitionCount] at h
  simp only [Bool.not_eq_true, Bool.decide_eq_false] at h
  omega

theorem countP_high_symbols (cfg : Config) (c : Nat) (bits : List Bool) (l : Line) :
    ((waveform l (bits.flatMap (symbolEvents cfg c))).countP fun seg => decide (seg.1 = .high)) = bits.length := by
  rw [waveform_symbols]
  induction bits with
  | nil => rfl
  | cons b bs ih => rw [List.flatMap_cons, List.countP_append, ih, List.length_cons, Nat.add_comm]; rfl

theorem countP_high_gapEvents (cfg : Config) (c : Nat) {l : Line} (hl : l ≠ .high) :
    ((waveform l (gapEvents cfg c)).countP fun seg => decide (seg.1 = .high)) = 0 := by
  cases hg : cfg.params.gapSetLow <;> simp [gapEvents, hg, waveform, hl]

/-- High segments of the frame (R95): one for each symbol, and none for the gap on a line that is not High. -/
theorem countP_high_frameEvents (cfg : Config) (c : Nat) (cs : List Color) {l : Line} (hl : l ≠ .high) :
    ((waveform l (frameEvents cfg c cs)).countP fun seg => decide (seg.1 = .high)) = 24 * cs.length := by
  have hgap : lineAfter l ((frameBits cs).flatMap (symbolEvents cfg c)) ≠ .high := by
    rw [lineAfter_symbols]
    split
    · exact hl
    · simp
  rw [frameEvents, waveform_append, List.countP_append, countP_high_symbols, countP_high_gapEvents cfg c hgap,
    length_frameBits, Nat.add_zero]

/-- Settles O35: the events are the frame, whose counts are those of its symbols and its gap. -/
theorem writeEmitsTheCountsOfItsLength : Obligations.WriteEmitsTheCountsOfItsLength := by
  intro s c cs hi hm hc hn hok
  refine ⟨_, (frameBits cs).flatMap (symbolEvents s.cfg c), gapEvents s.cfg c, gapTransitions s.cfg,
    runSteps_startWrite_ok hm hc hn hok, rfl, rfl, rfl, length_frameBits cs,
    countP_high_frameEvents s.cfg c cs (hi.idle_not_high hm), countP_isTransition_frameEvents s.cfg c cs,
    countP_not_isTransition_frameEvents s.cfg c cs, length_frameEvents s.cfg c cs, ?_, ?_⟩
  · rw [length_symbols, length_frameBits]; omega
  · cases hg : s.cfg.params.gapSetLow <;> simp [gapEvents, hg, gapCycles]

/-! ### Nominal cycles -/

theorem nominalCycles_frameEvents (cfg : Config) (c : Nat) (cs : List Color) :
    nominalCycles (frameEvents cfg c cs) =
      (24 * cs.length * (cfg.params.lMult + cfg.params.sMult) + cfg.params.resetUnits) * c := by
  rw [frameEvents, nominalCycles_append, nominalCycles_symbols, nominalCycles_gapEvents, length_frameBits,
    ← Nat.add_mul]

/-- Settles O36: the frame's nominal cycles, and their value with the values taken. -/
theorem writeLastsItsNominalDuration : Obligations.WriteLastsItsNominalDuration := by
  intro s c cs hm hc hn hok
  have hcycles : nominalCycles (s.trace ++ frameEvents s.cfg c cs) = nominalCycles s.trace +
      (24 * cs.length * (s.cfg.params.lMult + s.cfg.params.sMult) + s.cfg.params.resetUnits) * c := by
    rw [nominalCycles_append, nominalCycles_frameEvents]
  have htaken (h : s.cfg = Config.taken) : nominalCycles (s.trace ++ frameEvents s.cfg c cs) =
      nominalCycles s.trace + (72 * cs.length + 300) * c := by
    rw [hcycles, h, show 72 * cs.length = 24 * cs.length * 3 by omega]
    rfl
  refine ⟨_, runSteps_startWrite_ok hm hc hn hok, hcycles, htaken, fun h h14 => ?_⟩
  exact (htaken h).trans (by rw [h14])

/-! ### The WRITE of no colours -/

/-- The WRITE of no colours answered ok issues the gap alone. -/
theorem emptyWrite_ok {s : State} {c : Nat} (hm : s.mode = .idle) (hc : s.cal = some c)
    (hn : NoReset (1 + gapTransitions s.cfg) s) (hok : AllOk (gapTransitions s.cfg) s) :
    ∃ u, runSteps (1 + gapTransitions s.cfg) (s.startWrite 0 []) = .next u ∧ u.results = s.results ++ [.ok] ∧
      u.line = lineAfter s.line (gapEvents s.cfg c) ∧ u.trace = s.trace ++ gapEvents s.cfg c := by
  have hevents : eventCount s.cfg ([] : List Color).length = 1 + gapTransitions s.cfg := by simp [eventCount]
  have htransitions : transitionCount s.cfg ([] : List Color).length = gapTransitions s.cfg := by simp [transitionCount]
  have hrun := runSteps_startWrite_ok (cs := []) hm hc (hevents ▸ hn) (htransitions ▸ hok)
  rw [hevents] at hrun
  exact ⟨_, hrun, rfl, rfl, rfl⟩

/-- Settles O34: the big step of no colours is the gap. -/
theorem emptyWriteIsOneGap : Obligations.EmptyWriteIsOneGap := by
  intro s c hm hc hn
  refine ⟨fun hg ha => ?_, fun hg ha => ?_, fun hg => ?_⟩
  · have hone : gapTransitions s.cfg = 1 := by simp [gapTransitions, hg]
    have hok : AllOk 1 s := fun k hk => by rwa [Nat.lt_one_iff.mp hk]
    obtain ⟨u, hrun, hres, hline, htrace⟩ := emptyWrite_ok hm hc (by rwa [hone]) (by rwa [hone])
    rw [hone] at hrun
    rw [gapEvents, if_pos hg] at hline htrace
    exact ⟨u, hrun, hres, hline, htrace⟩
  · have hw : writeWhole c [] s = (((s.startWrite 0 []).consume 1).answered .low .fault).raisePinFault := by
      simp [writeWhole, sendFrame, sendColors, sendGap, hg, pinSet_eq, ha, finishWrite]
    have hrun := runSteps_startWrite (n := 1) (cs := []) hm hc (by simp [hw]) (noReset_mono (by decide) hn)
    rw [hw] at hrun
    exact ⟨_, hrun, rfl, rfl⟩
  · have hzero : gapTransitions s.cfg = 0 := by simp [gapTransitions, hg]
    obtain ⟨u, hrun, hres, hline, htrace⟩ := emptyWrite_ok hm hc
      (by rw [hzero]; exact noReset_mono (by decide) hn)
      (by rw [hzero]; exact fun k hk => absurd hk (Nat.not_lt_zero k))
    rw [hzero] at hrun
    rw [gapEvents, if_neg (Bool.eq_false_iff.mp hg)] at hline htrace
    exact ⟨u, hrun, hres, hline, htrace⟩

end Sys2Proof.Machine
end

section
/-! PROOFS. The symbols of the wire: SYM1 and SYM0, answered ok or faulted, and the bits that select the symbols of a
BYTE and of a COLOR. -/

namespace Sys2Proof.Machine

/-! ### A symbol cut by a fault -/

/-- A run of symbols cut by its first fault ends in the abort (R152). -/
theorem settle_sendBits_fault (c : Nat) {bits : List Bool} {s : State} {t : Nat} (hf : FirstFaultAt t s)
    (ht : t ≤ 2 * bits.length) :
    settle (sendBits c bits s) =
      ({ s.consume t with
        trace := s.trace ++ ((bits.flatMap (symbolEvents s.cfg c)).take (2 * t - 2) ++
          [.set (if t % 2 = 1 then .high else .low) .fault]) } : State).raisePinFault := by
  rw [sendBits_fault c bits s t hf ht, settle_fault, List.append_assoc]
  rfl

/-- SYM1 and SYM0 whose `t`-th transition is the first to fault (R110, R111, R152). -/
theorem exec_symbol_fault {s : State} {c t : Nat} (hc : s.cal = some c) (bit : Bool) (hf : FirstFaultAt t s)
    (ht : t ≤ 2) :
    exec (if bit then .sym1 else .sym0) s = .next
      ({ s.consume t with
        trace := s.trace ++ ((symbolEvents s.cfg c bit).take (2 * t - 2) ++
          [.set (if t % 2 = 1 then .high else .low) .fault]) } : State).raisePinFault := by
  have hexec : exec (if bit then .sym1 else .sym0) s = withCal s fun c => settle (sendBit c bit s) := by
    cases bit <;> rfl
  rw [hexec, withCal_eq hc, ← sendBits_singleton, settle_sendBits_fault c hf (by simpa using ht),
    List.flatMap_singleton]

/-- Settles O10: the three cases of a symbol, at the bit 1. -/
theorem sym1SendsLongHighShortLow : Obligations.Sym1SendsLongHighShortLow :=
  fun _ _ hc => ⟨exec_symbol_ok hc true, fun hf => exec_symbol_fault hc true hf (by decide),
    fun hf => exec_symbol_fault hc true hf (by decide)⟩

/-- Settles O11: the three cases of a symbol, at the bit 0. -/
theorem sym0SendsShortHighLongLow : Obligations.Sym0SendsShortHighLongLow :=
  fun _ _ hc => ⟨exec_symbol_ok hc false, fun hf => exec_symbol_fault hc false hf (by decide),
    fun hf => exec_symbol_fault hc false hf (by decide)⟩

/-! ### The bits that select the symbols -/

theorem byteBits_eq_map_range (v : Byte) : byteBits v = (List.range 8).map fun j => v.getLsbD (7 - j) := rfl

/-- The symbols of a byte, most significant bit first (R112). -/
theorem symbols_byteBits (cfg : Config) (c : Nat) (v : Byte) :
    (byteBits v).flatMap (symbolEvents cfg c) =
      (List.range 8).flatMap fun j => symbolEvents cfg c (v.getLsbD (7 - j)) := by
  rw [byteBits_eq_map_range, List.flatMap_map]

/-- The symbols of a colour are those of its three channels in wire order (R113). -/
theorem symbols_wireBits (cfg : Config) (c : Nat) (col : Color) :
    (wireBits col).flatMap (symbolEvents cfg c) =
      [col.g, col.r, col.b].flatMap fun v => (byteBits v).flatMap (symbolEvents cfg c) := by
  simp [wireBits]

/-- A bit of a channel value by division (R115). -/
theorem getLsbD_eq_decide_div (v : Byte) (k : Nat) : v.getLsbD k = decide (v.toNat / 2 ^ k % 2 = 1) :=
  Nat.testBit_eq_decide_div_mod_eq

/-- Settles O12: the run of a BYTE answered ok, its events counted. -/
theorem byteSendsEightSymbolsMsbFirst : Obligations.ByteSendsEightSymbolsMsbFirst :=
  fun _ _ v hc hok => ⟨_, exec_byte_ok hc v hok, symbols_byteBits .., length_symbols .., nominalCycles_symbols ..⟩

/-- Settles O13: the run of a COLOR answered ok, its events counted. -/
theorem colorSendsGreenRedBlue : Obligations.ColorSendsGreenRedBlue := by
  intro s c r g b hc hok
  refine ⟨_, exec_color_ok hc r g b hok, ?_, length_symbols .., nominalCycles_symbols ..⟩
  rw [symbols_wireBits]
  simp only [symbols_byteBits]

/-- Settles O18: a bit by division selects the symbol, in a BYTE and in the wire word. -/
theorem symbolSelectionIsTheExactBit : Obligations.SymbolSelectionIsTheExactBit := by
  refine ⟨fun s c v hc hok => ⟨_, exec_byte_ok hc v hok, ?_⟩, fun col ch k => ?_⟩
  · have hbits : byteBits v = [7, 6, 5, 4, 3, 2, 1, 0].map v.getLsbD := rfl
    refine congrArg (s.trace ++ ·) ?_
    rw [hbits, List.flatMap_map]
    refine List.flatMap_congr fun k _ => ?_
    rw [getLsbD_eq_decide_div]
    split
    · rename_i h1; rw [decide_eq_true h1]; rfl
    · rename_i h0; rw [decide_eq_false h0]; rfl
  · rw [wireBit_wireWord, getLsbD_eq_decide_div]
    cases ch <;> rfl

end Sys2Proof.Machine
end

section
/-! PROOFS. The positions of a WRITE (R117): each is followed by the next, and the sequencer stands at them step after
step while PIN answers ok. -/

namespace Sys2Proof.Machine

/-! ### The position after a position -/

/-- The position after `p` once its event is issued, a transition answered ok (R92); none after the last. -/
def Pos.after (cfg : Config) (len : Nat) : Pos → Option Pos
  | .bit i ch k .setHigh => some (.bit i ch k .delayHigh)
  | .bit i ch k .delayHigh => some (.bit i ch k .setLow)
  | .bit i ch k .setLow => some (.bit i ch k .delayLow)
  | .bit i ch k .delayLow => some (nextPos cfg len i ch k)
  | .gap .setLow => some (.gap .delay)
  | .gap .delay => none

/-- Whether a position issues a transition. -/
def Pos.isTransition (p : Pos) : Bool :=
  p.transition.isSome

theorem after_of_transition {p q : Pos} {l : Level} (cfg : Config) (len : Nat) (h : p.transition = some (l, q)) :
    p.after cfg len = some q := by
  obtain ⟨i, ch, k, rfl, rfl⟩ | ⟨i, ch, k, rfl, rfl⟩ | ⟨rfl, rfl⟩ := transition_cases h <;> rfl

theorem afterDelay_seq {p : Pos} (s : State) (h : p.transition = none) :
    (afterDelay p s).seq = p.after s.cfg s.len := by
  obtain ⟨i, ch, k, rfl⟩ | ⟨i, ch, k, rfl⟩ | rfl := delay_position_cases h <;> rfl

/-- The end of a DELAY uses none of PIN's answers. -/
theorem allOk_afterDelay {p : Pos} {s : State} {n : Nat} : AllOk n (afterDelay p s) ↔ AllOk n s := by
  cases p with
  | bit i ch k stg => cases stg <;> exact allOk_congr rfl rfl
  | gap stg => cases stg <;> exact allOk_congr rfl rfl

/-! ### The list of positions -/

/-- The positions of the gap, in order (R117). -/
def gapPositions (cfg : Config) : List Pos :=
  if cfg.params.gapSetLow then [.gap .setLow, .gap .delay] else [.gap .delay]

theorem length_gapPositions (cfg : Config) : (gapPositions cfg).length = 1 + gapTransitions cfg := by
  cases hg : cfg.params.gapSetLow <;> simp [gapPositions, gapTransitions, hg]

theorem countP_isTransition_gapPositions (cfg : Config) :
    (gapPositions cfg).countP Pos.isTransition = gapTransitions cfg := by
  cases hg : cfg.params.gapSetLow <;> rw [gapPositions, gapTransitions, hg] <;> rfl

theorem head?_gapPositions (cfg : Config) : (gapPositions cfg).head? = some (gapStart cfg) := by
  cases hg : cfg.params.gapSetLow <;> simp [gapPositions, gapStart, hg]

/-- The positions of `n` colours from colour `i` on, and of the gap. -/
def positionsFrom (cfg : Config) (i n : Nat) : List Pos :=
  (List.range' i n).flatMap colorPositions ++ gapPositions cfg

theorem positions_eq_positionsFrom (cfg : Config) (len : Nat) : positions cfg len = positionsFrom cfg 0 len := by
  rw [positions, List.range_eq_range']
  rfl

theorem positionsFrom_zero (cfg : Config) (i : Nat) : positionsFrom cfg i 0 = gapPositions cfg := rfl

theorem positionsFrom_succ (cfg : Config) (i n : Nat) :
    positionsFrom cfg i (n + 1) = colorPositions i ++ positionsFrom cfg (i + 1) n := by
  rw [positionsFrom, List.range'_succ, List.flatMap_cons, List.append_assoc]
  rfl

theorem length_positionsFrom (cfg : Config) (i n : Nat) : (positionsFrom cfg i n).length = eventCount cfg n := by
  induction n generalizing i with
  | zero => rw [positionsFrom_zero, length_gapPositions, eventCount]
  | succ n ih =>
    have hcolor : (colorPositions i).length = 96 := rfl
    rw [positionsFrom_succ, List.length_append, ih, hcolor, eventCount, eventCount]
    omega

theorem countP_isTransition_positionsFrom (cfg : Config) (i n : Nat) :
    (positionsFrom cfg i n).countP Pos.isTransition = transitionCount cfg n := by
  induction n generalizing i with
  | zero => rw [positionsFrom_zero, countP_isTransition_gapPositions, transitionCount, Nat.mul_zero, Nat.zero_add]
  | succ n ih =>
    have hcolor : (colorPositions i).countP Pos.isTransition = 48 := rfl
    rw [positionsFrom_succ, List.countP_append, ih, hcolor, transitionCount, transitionCount]
    omega

theorem getLast?_positionsFrom (cfg : Config) (i n : Nat) :
    (positionsFrom cfg i n).getLast? = some (.gap .delay) := by
  cases hg : cfg.params.gapSetLow <;> simp [positionsFrom, gapPositions, hg]

/-- Each position of a list is followed by the position after it. -/
def IsPath (cfg : Config) (len : Nat) (ps : List Pos) : Prop :=
  ps.IsChain fun p q => p.after cfg len = some q

/-- Within a colour `next` does not depend on the length of the sequence. -/
theorem isPath_colorPositions (cfg : Config) (len i : Nat) : IsPath cfg len (colorPositions i) := by
  repeat constructor

theorem isPath_gapPositions (cfg : Config) (len : Nat) : IsPath cfg len (gapPositions cfg) := by
  unfold gapPositions
  split <;> simp [IsPath, Pos.after]

theorem head?_positionsFrom (cfg : Config) (i n : Nat) :
    (positionsFrom cfg i n).head? = some (colorPos cfg (i + n) i) := by
  cases n with
  | zero => rw [positionsFrom_zero, head?_gapPositions, colorPos, if_neg (by omega)]
  | succ n => rw [positionsFrom_succ, colorPos, if_pos (by omega)]; rfl

/-- By induction on the colours: after the last position of one, `next` is the first of the next, or of the gap. -/
theorem isPath_positionsFrom (cfg : Config) (i n : Nat) : IsPath cfg (i + n) (positionsFrom cfg i n) := by
  induction n generalizing i with
  | zero => exact isPath_gapPositions cfg i
  | succ n ih =>
    have hrest := ih (i + 1)
    have hhead := head?_positionsFrom cfg (i + 1) n
    rw [Nat.succ_add_eq_add_succ i n] at hrest hhead
    rw [positionsFrom_succ]
    refine List.isChain_append.mpr ⟨isPath_colorPositions .., hrest, ?_⟩
    intro p hp q hq
    obtain rfl : .bit i .blue 0 .delayLow = p := Option.some.inj hp
    rw [hhead] at hq
    exact (congrArg some (nextPos_blue_zero ..)).trans hq

/-! ### The sequencer at a position -/

/-- A WRITE of `len` colours that stands at `p`, with its operands in place. -/
structure State.Writing (s : State) (cfg : Config) (len : Nat) (p : Pos) : Prop where
  mode : s.mode = .transmitting
  seq : s.seq = some p
  cal : s.cal.isSome = true
  cfg : s.cfg = cfg
  len : s.len = len
  colors : s.len = s.colors.length
  stands : s.Stands p

theorem State.Writing.startWrite {s : State} {c : Nat} (hc : s.cal = some c) (cs : List Color) :
    (s.startWrite cs.length cs).Writing s.cfg cs.length (startPos s.cfg cs.length) :=
  ⟨rfl, rfl, Option.isSome_of_eq_some hc, rfl, rfl, rfl, .startPos _ rfl⟩

theorem State.Writing.moveTo {s t : State} {cfg : Config} {len : Nat} {p q : Pos} (h : s.Writing cfg len p)
    (hk : s.SameWrite t) (hs : t.seq = some q) (hst : t.Stands q) : t.Writing cfg len q where
  mode := hk.mode.trans h.mode
  seq := hs
  cal := hk.cal ▸ h.cal
  cfg := hk.cfg.trans h.cfg
  len := hk.len.trans h.len
  colors := by rw [hk.len, hk.colors]; exact h.colors
  stands := hst

theorem State.Stands.exists_color {s : State} {i : Nat} {ch : Channel} {k : Fin 8} {stg : BitStage}
    (h : s.Stands (.bit i ch k stg)) : ∃ col, s.colors[i]? = some col :=
  ⟨_, List.getElem?_eq_getElem (h.index_in_range i ch k stg rfl)⟩

/-- Where a colour is read there is one (R56). -/
theorem State.Stands.exists_loadColor {s : State} {p : Pos} (h : s.Stands p) : ∃ u, Machine.loadColor p s = .ok u := by
  cases hr : p.readsColor with
  | none => exact ⟨s, loadColor_of_readsNone hr⟩
  | some i =>
    cases readsColor_eq_some hr
    obtain ⟨col, hcol⟩ := h.exists_color
    exact ⟨_, loadColor_setHigh .green 7 hcol⟩

/-- Where a DELAY of a symbol reads SHREG, it is loaded (R28). -/
theorem State.Stands.exists_delayArgument {s : State} {c : Nat} {p : Pos} (h : s.Stands p) (hc : s.cal = some c)
    (hp : p.transition = none) : ∃ n, delayArgument p s = .ok n := by
  obtain ⟨i, ch, k, rfl⟩ | ⟨i, ch, k, rfl⟩ | rfl := delay_position_cases hp
  · obtain ⟨col, hcol⟩ := h.exists_color
    have hw := h.shreg_colour i ch k _ col rfl hcol (readsColor_eq_none _ _ _ (by simp))
    exact ⟨_, (delayArgument_symbol hc hw).1⟩
  · obtain ⟨col, hcol⟩ := h.exists_color
    have hw := h.shreg_colour i ch k _ col rfl hcol (readsColor_eq_none _ _ _ (by simp))
    exact ⟨_, (delayArgument_symbol hc hw).2⟩
  · exact ⟨_, delayArgument_gap hc⟩

/-- A transition answered ok leaves the operands in place for the position after it. -/
theorem State.Stands.transition {s u : State} {p q : Pos} {l : Level} (h : s.Stands p)
    (hp : p.transition = some (l, q)) (hu : Machine.loadColor p s = .ok u) : u.Stands q := by
  obtain ⟨i, ch, k, rfl, rfl⟩ | ⟨i, ch, k, rfl, rfl⟩ | ⟨rfl, rfl⟩ := transition_cases hp
  · exact h.loadColor hu
  · exact h.loadColor hu
  · exact .gapDelay u

/-- The step of a transition answered ok. -/
theorem State.Writing.step_transition {s : State} {cfg : Config} {len : Nat} {p q : Pos} {l : Level}
    (h : s.Writing cfg len p) (hp : p.transition = some (l, q)) (ha : s.answerAt 0 = .ok) :
    ∃ t, sequencerStep p s = .next t ∧ (∀ n, AllOk (1 + n) s → AllOk n t) ∧ t.Writing cfg len q := by
  obtain ⟨u, hu⟩ := h.stands.exists_loadColor
  have hst := h.stands.transition hp hu
  obtain ⟨x, rfl⟩ := loadColor_writes_shreg hu
  refine ⟨{ (({ s with shreg := x } : State).consume 1).answered l .ok with seq := some q }, ?_,
    fun n hok => (allOk_congr (s := s.consume 1) rfl rfl).mpr (allOk_consume hok),
    h.moveTo (by constructor <;> rfl) rfl { hst with }⟩
  have ha' : ({ s with shreg := x } : State).answerAt 0 = .ok := ha
  simp only [sequencerStep, hp, hu, pinSet_eq, ha', afterTransition]

/-- The step of a DELAY. -/
theorem State.Writing.step_delay {s : State} {cfg : Config} {len : Nat} {p : Pos} (h : s.Writing cfg len p)
    (hp : p.transition = none) :
    ∃ t, sequencerStep p s = .next t ∧ (∀ n, AllOk n s → AllOk n t) ∧ t.seq = p.after cfg len ∧
      ∀ q, p.after cfg len = some q → t.Writing cfg len q := by
  obtain ⟨c, hc⟩ := Option.isSome_iff_exists.mp h.cal
  obtain ⟨n, hn⟩ := h.stands.exists_delayArgument hc hp
  have hseq : (Machine.afterDelay p (delayFor n s)).seq = p.after cfg len := by
    rw [afterDelay_seq _ hp, delayFor_cfg, delayFor_len, h.cfg, h.len]
  refine ⟨Machine.afterDelay p (delayFor n s), by simp only [sequencerStep, hp, hn],
    fun _ hok => allOk_afterDelay.mpr hok, hseq, fun q hq => ?_⟩
  rw [hq] at hseq
  obtain ⟨i, ch, k, rfl⟩ | ⟨i, ch, k, rfl⟩ | rfl := delay_position_cases hp
  · cases hq
    have hst : s.Stands (.bit i ch k .setLow) := h.stands.sameColour (readsColor_eq_none _ _ _ (by simp))
    exact h.moveTo (by constructor <;> rfl) hseq { hst with }
  · cases hq
    have hst := h.stands.nextPos h.colors
    rw [h.cfg, h.len] at hst
    exact h.moveTo (by constructor <;> rfl) hseq { hst with }
  · cases hq

/-- A step at the first of some positions, whose transitions are all answered ok, moves to the position after it. -/
theorem State.Writing.step {s : State} {cfg : Config} {len : Nat} {p : Pos} {ps : List Pos} (h : s.Writing cfg len p)
    (hok : AllOk ((p :: ps).countP Pos.isTransition) s) :
    ∃ t, RunsTo 1 s t ∧ AllOk (ps.countP Pos.isTransition) t ∧ t.seq = p.after cfg len ∧
      ∀ q, p.after cfg len = some q → t.Writing cfg len q := by
  cases hp : p.transition with
  | none =>
    rw [List.countP_cons_of_neg (by simp [Pos.isTransition, hp])] at hok
    obtain ⟨t, ht, hans, hseq, hw⟩ := h.step_delay hp
    exact ⟨t, runsTo_one h.mode h.seq ht, hans _ hok, hseq, hw⟩
  | some lq =>
    obtain ⟨l, q⟩ := lq
    rw [List.countP_cons_of_pos (by simp [Pos.isTransition, hp]), Nat.add_comm] at hok
    obtain ⟨t, ht, hans, hw⟩ := h.step_transition hp (hok 0 (by omega))
    rw [after_of_transition cfg len hp]
    exact ⟨t, runsTo_one h.mode h.seq ht, hans _ hok, hw.seq, by rintro _ ⟨⟩; exact hw⟩

/-- A WRITE that stands at the first position of a path to the gap's DELAY stands at each position of it in turn, by
induction on the path; after the last, SEQ has no value. -/
theorem State.Writing.visits {s : State} {cfg : Config} {len : Nat} {p : Pos} {ps : List Pos} {k : Nat}
    (h : s.Writing cfg len p) (hpath : IsPath cfg len (p :: ps)) (hlast : (p :: ps).getLast? = some (.gap .delay))
    (hok : AllOk ((p :: ps).countP Pos.isTransition) s) (hk : k ≤ (p :: ps).length) :
    ∃ u, RunsTo k s u ∧ u.seq = (p :: ps)[k]? := by
  induction ps generalizing s p k with
  | nil =>
    obtain rfl : p = .gap .delay := Option.some.inj hlast
    obtain ⟨t, ht, _, hseq, _⟩ := h.step hok
    match k, hk with
    | 0, _ => exact ⟨s, .refl s, h.seq⟩
    | 1, _ => exact ⟨t, ht, hseq⟩
  | cons q qs ih =>
    obtain ⟨hq, hrest⟩ := List.isChain_cons_cons.mp hpath
    obtain ⟨t, ht, hok', _, hw⟩ := h.step hok
    cases k with
    | zero => exact ⟨s, .refl s, h.seq⟩
    | succ k =>
      rw [List.getLast?_cons_cons] at hlast
      obtain ⟨u, hu, hseq⟩ := ih (hw q hq) hrest hlast hok' (Nat.le_of_succ_le_succ hk)
      exact ⟨u, Nat.add_comm 1 k ▸ ht.trans hu, hseq⟩

/-- Settles O37: the positions are a path from where the WRITE starts, and the sequencer walks along it. -/
theorem sequencerVisitsThePositionsInOrder : Obligations.SequencerVisitsThePositionsInOrder := by
  refine ⟨nextPos_eq, fun s c cs k hm hc hk hn hok => ?_⟩
  rw [positions_eq_positionsFrom]
  have hlen := length_positionsFrom s.cfg 0 cs.length
  have hcount := countP_isTransition_positionsFrom s.cfg 0 cs.length
  have hlast := getLast?_positionsFrom s.cfg 0 cs.length
  have hpath := isPath_positionsFrom s.cfg 0 cs.length
  obtain ⟨ps, hps⟩ := List.head?_eq_some_iff.mp (head?_positionsFrom s.cfg 0 cs.length)
  rw [Nat.zero_add, colorPos_zero] at hps
  rw [Nat.zero_add] at hpath
  rw [hps] at hlen hcount hlast hpath ⊢
  have hstart := State.Writing.startWrite hc cs
  obtain ⟨u, hu, hseq⟩ := hstart.visits hpath hlast (hcount ▸ hok) (hlen ▸ hk)
  exact ⟨hlen, _, hu.run hn, hseq⟩

end Sys2Proof.Machine
end

section
/-! PROOFS. The primitives SET_HIGH, SET_LOW and DELAY: what exec of each is, and a transition by PIN's answer. -/

namespace Sys2Proof.Machine

/-! ### exec of the primitives -/

theorem exec_setHigh (s : State) : exec .setHigh s = .next (pinSet .high s).1 := rfl

theorem exec_setLow (s : State) : exec .setLow s = .next (pinSet .low s).1 := rfl

theorem exec_delay (n : Nat) (s : State) : exec (.delay n) s = .next (delayFor n s) := rfl

/-! ### A transition by PIN's answer -/

/-- The caller gets PIN's answer (R130, R131). -/
theorem pinSet_snd (l : Level) (s : State) : (pinSet l s).2 = s.answerAt 0 := rfl

theorem pinSet_fst_of_ok {s : State} (l : Level) (h : s.answerAt 0 = .ok) :
    (pinSet l s).1 = { s.consume 1 with line := l.toLine, trace := s.trace ++ [.set l .ok] } := by
  rw [pinSet_eq, h]
  rfl

theorem pinSet_fst_of_fault {s : State} (l : Level) (h : s.answerAt 0 = .fault) :
    (pinSet l s).1 = { s.consume 1 with line := .unknown, trace := s.trace ++ [.set l .fault] } := by
  rw [pinSet_eq, h]
  rfl

/-! ### The primitives, one by one -/

/-- Settles O6: a transition to High, by PIN's answer. -/
theorem setHighDrivesTheLine : Obligations.SetHighDrivesTheLine :=
  fun s => ⟨fun h => (exec_setHigh s).trans (congrArg _ (pinSet_fst_of_ok .high h)),
    fun h => (exec_setHigh s).trans (congrArg _ (pinSet_fst_of_fault .high h)), exec_setHigh s, pinSet_snd .high s⟩

/-- Settles O7: a transition to Low, by PIN's answer. -/
theorem setLowDrivesTheLine : Obligations.SetLowDrivesTheLine :=
  fun s => ⟨fun h => (exec_setLow s).trans (congrArg _ (pinSet_fst_of_ok .low h)),
    fun h => (exec_setLow s).trans (congrArg _ (pinSet_fst_of_fault .low h)), exec_setLow s, pinSet_snd .low s⟩

/-- Settles O8: exec of a DELAY is the operation that appends its event. -/
theorem delayEmitsItsArgument : Obligations.DelayEmitsItsArgument := exec_delay

end Sys2Proof.Machine
end

section
/-! PROOFS. PinFault (60_exceptions.md): the abort at a transition, the WRITE cut at its first faulted transition, and
that nothing else raises it. -/

namespace Sys2Proof.Machine

/-! ### The abort at a transition -/

/-- Reading a colour leaves the reset schedule alone, and does not read it. -/
theorem loadColor_popRst {p : Pos} {s u : State} (h : loadColor p s = .ok u) :
    loadColor p s.popRst = .ok u.popRst := by
  obtain ⟨hp, rfl⟩ | ⟨i, col, hp, hcol, rfl⟩ := loadColor_ok h
  · exact loadColor_of_readsNone hp
  · simp only [loadColor, hp, show memRead i s.popRst = some col from hcol]
    rfl

/-- Settles O28: the step of a faulted transition is the abort, which leaves the block Idle. -/
theorem abortLeavesTheStateOfPinFault : Obligations.AbortLeavesTheStateOfPinFault := by
  intro s u p q l hr hm hs hp hu ha
  have hstep := step_transition hr hm hs hp (loadColor_popRst hu)
  obtain ⟨x, rfl⟩ := loadColor_writes_shreg hu
  rw [ha] at hstep
  exact ⟨_, hstep, rfl, rfl, rfl, rfl, rfl, rfl, rfl, rfl, rfl, rfl, fun cs => ⟨_, execWrite_idle rfl⟩⟩

/-! ### The big step cut by its first fault -/

/-- The state after an abort, once PIN has answered `n` transitions and the events `es` are issued (R153). -/
def State.aborted (s : State) (n : Nat) (es : List Event) : State :=
  ({ s.consume n with trace := s.trace ++ es } : State).raisePinFault

@[simp] theorem State.aborted_trace (s : State) (n : Nat) (es : List Event) :
    (s.aborted n es).trace = s.trace ++ es := rfl

@[simp] theorem State.aborted_results (s : State) (n : Nat) (es : List Event) :
    (s.aborted n es).results = s.results ++ [.pinFault] := rfl

/-- A first fault among the symbols aborts the WRITE there. -/
theorem finishWrite_sendBits_fault (c : Nat) {bits : List Bool} {s : State} {t : Nat} (hf : FirstFaultAt t s)
    (ht : t ≤ 2 * bits.length) (f : State → State × Answer) :
    finishWrite (andThen (sendBits c bits s) f) = s.aborted t
      ((bits.flatMap (symbolEvents s.cfg c)).take (2 * t - 2) ++
        [.set (if t % 2 = 1 then .high else .low) .fault]) := by
  rw [sendBits_fault c bits s t hf ht, andThen_fault, List.append_assoc]
  rfl

/-- A state with another DCNT. -/
def State.withDcnt (s : State) (d : Option Nat) : State :=
  { s with dcnt := d }

/-- Symbols answered ok, of any number: with no symbol DCNT stays as it was. -/
theorem sendBits_eq_emitted_withDcnt (c : Nat) {bits : List Bool} {s : State} (hok : AllOk (2 * bits.length) s) :
    ∃ d, sendBits c bits s =
      ((s.emitted (2 * bits.length) (bits.flatMap (symbolEvents s.cfg c))).withDcnt d, .ok) := by
  cases bits with
  | nil => exact ⟨s.dcnt, by simp [sendBits, State.emitted, State.withDcnt, lineAfter]⟩
  | cons bit bits => exact ⟨none, sendBits_eq_emitted c (List.cons_ne_nil _ _) hok⟩

theorem sendGap_fault (c : Nat) {s : State} (hg : s.cfg.params.gapSetLow = true) (ha : s.answerAt 0 = .fault) :
    sendGap c s = ((s.consume 1).answered .low .fault, .fault) := by
  simp [sendGap, hg, pinSet_eq, ha]

/-- A first fault at the gap's SET_LOW aborts the WRITE after its last symbol. -/
theorem finishWrite_sendGap_fault (c : Nat) {bits : List Bool} {s : State} (hg : s.cfg.params.gapSetLow = true)
    (hf : FirstFaultAt (2 * bits.length + 1) s) :
    finishWrite (andThen (sendBits c bits s) (sendGap c)) = s.aborted (2 * bits.length + 1)
      (bits.flatMap (symbolEvents s.cfg c) ++ [.set .low .fault]) := by
  obtain ⟨_, hok, ha⟩ := hf
  obtain ⟨d, hsend⟩ := sendBits_eq_emitted_withDcnt c hok
  have hgap := sendGap_fault c (s := (s.emitted (2 * bits.length) (bits.flatMap (symbolEvents s.cfg c))).withDcnt d)
    hg ((answerAt_consume s (2 * bits.length) 0).trans ha)
  rw [hsend, andThen_ok, hgap, State.aborted, ← consume_consume, ← List.append_assoc]
  rfl

/-- The event of the `t`-th transition of a WRITE of `len` colours when it is answered fault: `H!` or `L!` (R152). -/
def faultedEvent (len t : Nat) : Event :=
  if t % 2 = 1 ∧ t ≤ 48 * len then .set .high .fault else .set .low .fault

theorem faultedEvent_of_symbol {len t : Nat} (h : t ≤ 48 * len) :
    faultedEvent len t = .set (if t % 2 = 1 then .high else .low) .fault := by
  by_cases hodd : t % 2 = 1 <;> simp [faultedEvent, h, hodd]

theorem faultedEvent_of_gap {len t : Nat} (h : 48 * len < t) : faultedEvent len t = .set .low .fault :=
  if_neg fun ⟨_, hle⟩ => Nat.not_le.mpr h hle

/-- Of the transitions of a WRITE only the gap's SET_LOW comes after those of the symbols. -/
theorem gapSetLow_of_transition {cfg : Config} {len t : Nat} (h : 48 * len < t) (ht : t ≤ transitionCount cfg len) :
    cfg.params.gapSetLow = true ∧ t = 48 * len + 1 := by
  cases hg : cfg.params.gapSetLow with
  | false => simp [transitionCount, gapTransitions, hg] at ht; omega
  | true => simp [transitionCount, gapTransitions, hg] at ht; exact ⟨rfl, by omega⟩

/-- The first fault of a WRITE cuts its big step at that transition (R152). -/
theorem writeWhole_fault (c : Nat) {cs : List Color} {s : State} {t : Nat} (hf : FirstFaultAt t s)
    (ht : t ≤ transitionCount s.cfg cs.length) :
    writeWhole c cs s = s.aborted t ((frameEvents s.cfg c cs).take (2 * t - 2) ++ [faultedEvent cs.length t]) := by
  have hbits : 2 * (frameBits cs).length = 48 * cs.length := by rw [length_frameBits]; omega
  have hevents : ((frameBits cs).flatMap (symbolEvents s.cfg c)).length = 96 * cs.length := by
    rw [length_symbols, length_frameBits]; omega
  rw [writeWhole_eq_bits, frameEvents]
  rcases Nat.lt_or_ge (48 * cs.length) t with hgap | hsymbol
  · obtain ⟨hg, rfl⟩ := gapSetLow_of_transition hgap ht
    rw [faultedEvent_of_gap hgap, List.take_left' (by omega), ← hbits]
    rw [← hbits] at hf
    exact finishWrite_sendGap_fault c (s := s.startWrite cs.length cs) hg hf
  · rw [faultedEvent_of_symbol hsymbol, List.take_append_of_le_length (by omega)]
    exact finishWrite_sendBits_fault c (s := s.startWrite cs.length cs) hf (by omega) _

/-! ### The run of a faulted WRITE -/

/-- A WRITE that is cut at a transition issues no more events than its frame has. -/
theorem two_mul_sub_one_le_eventCount {cfg : Config} {len t : Nat} (ht : t ≤ transitionCount cfg len) :
    2 * t - 1 ≤ eventCount cfg len := by
  have hone : gapTransitions cfg ≤ 1 := by unfold gapTransitions; split <;> decide
  simp only [transitionCount, eventCount] at ht ⊢
  omega

/-- The sequencer's run of a WRITE whose `t`-th transition is the first to fault. -/
theorem runSteps_startWrite_fault {s : State} {c t : Nat} {cs : List Color} (hm : s.mode = .idle)
    (hc : s.cal = some c) (hf : FirstFaultAt t s) (ht : t ≤ transitionCount s.cfg cs.length)
    (hn : NoReset (2 * t - 1) s) :
    runSteps (2 * t - 1) (s.startWrite cs.length cs) = .next
      { s.aborted t ((frameEvents s.cfg c cs).take (2 * t - 2) ++ [faultedEvent cs.length t]) with
        rstIn := s.rstIn.drop (2 * t - 1) } := by
  have hlen : (writeWhole c cs s).trace.length = s.trace.length + (2 * t - 1) := by
    have hle := two_mul_sub_one_le_eventCount ht
    have hpos := hf.1
    simp only [writeWhole_fault c hf ht, State.aborted_trace, List.length_append, List.length_take, length_frameEvents,
      List.length_singleton]
    omega
  rw [runSteps_startWrite hm hc hlen hn, writeWhole_fault c hf ht]

/-- Settles O32: the run of the faulted WRITE ends in the abort. -/
theorem faultedWriteIsCutAtTheTransition : Obligations.FaultedWriteIsCutAtTheTransition := by
  intro s c cs t hm hc hf ht hn
  have htrace := (List.append_assoc s.trace ((frameEvents s.cfg c cs).take (2 * t - 2)) [faultedEvent cs.length t]).symm
  exact ⟨_, runSteps_startWrite_fault hm hc hf ht hn, htrace, rfl, rfl, rfl, rfl, rfl, rfl, rfl⟩

/-! ### PinFault exactly when a transition faults -/

/-- Transitions that are not all answered ok have a first fault among them. -/
theorem exists_firstFaultAt {n : Nat} {s : State} (h : ¬ AllOk n s) : ∃ t, t ≤ n ∧ FirstFaultAt t s := by
  induction n with
  | zero => exact absurd (fun k hk => absurd hk (Nat.not_lt_zero k)) h
  | succ n ih =>
    by_cases hn : AllOk n s
    · refine ⟨n + 1, Nat.le_refl _, Nat.le_add_left 1 n, hn, ?_⟩
      cases ha : s.answerAt n with
      | fault => exact ha
      | ok =>
        refine absurd (fun k hk => ?_) h
        rcases Nat.lt_succ_iff_lt_or_eq.mp hk with hlt | rfl
        · exact hn k hlt
        · exact ha
    · obtain ⟨t, ht, hf⟩ := ih hn
      exact ⟨t, Nat.le_succ_of_le ht, hf⟩

/-- CONSTRUCT returns the result of its one transition (R90). -/
theorem constructed_results (s : State) (cal : Nat) (a : Answer) :
    (s.constructed cal a).results = s.results ++ [resultOfAnswer a] := by
  cases a <;> rfl

/-- The result of an answer is PinFault for a fault, and Ok for an ok, alone (R84). -/
theorem resultOfAnswer_eq_iff (a : Answer) :
    (resultOfAnswer a = .pinFault ↔ a = .fault) ∧ (resultOfAnswer a = .ok ↔ a = .ok) := by
  cases a <;> decide

@[simp] theorem State.emitted_results (s : State) (n : Nat) (es : List Event) :
    (s.emitted n es).results = s.results := rfl

/-- Settles O33: a WRITE completes, or is cut at its first fault; CONSTRUCT returns the result of its answer; a DELAY
returns none. -/
theorem pinFaultExactlyWhenATransitionFaults : Obligations.PinFaultExactlyWhenATransitionFaults := by
  refine ⟨fun s c cs hm hc hn => ?_, fun s cal hm => ?_, fun s n => ⟨_, exec_delay n s, rfl, rfl⟩⟩
  · by_cases hok : AllOk (transitionCount s.cfg cs.length) s
    · exact ⟨_, _, Nat.le_refl _, runSteps_startWrite_ok hm hc hn hok, rfl, by simp [hok], by simp [hok]⟩
    · obtain ⟨t, ht, hf⟩ := exists_firstFaultAt hok
      have hle := two_mul_sub_one_le_eventCount ht
      exact ⟨_, _, hle, runSteps_startWrite_fault hm hc hf ht (noReset_mono hle hn), rfl, by simp [hok],
        by simp [hok]⟩
  · obtain ⟨hfault, hok⟩ := resultOfAnswer_eq_iff (s.answerAt 0)
    exact ⟨_, execConstruct_absent hm, by simpa [constructed_results] using hfault,
      by simpa [constructed_results] using hok⟩

end Sys2Proof.Machine
end

section
/-! PROOFS. Reset (70_reset_and_hazards.md): what a step does that samples `rst` 1, and what its release does. -/

namespace Sys2Proof.Machine

/-! ### The assertion and the release of rst -/

/-- A step that samples `rst` 1 asserts the reset, whatever the mode and the position. -/
theorem step_assertReset {s : State} (h : s.rstNow = true) : step s = .next s.popRst.assertReset := by
  simp only [step, h]

/-- The release of `rst` is CONSTRUCT with `cal_init` (R180). -/
theorem step_releaseReset {s : State} (hr : s.rst = true) (hn : s.rstNow = false) (hm : s.mode = .absent) :
    step s = .next ((({ s.popRst with rst := false } : State).consume 1).constructed s.calInit (s.answerAt 0)) := by
  have hexec : step s = exec (.construct s.calInit) { s.popRst with rst := false } := by simp only [step, hn, hr]
  exact hexec.trans (execConstruct_absent hm)

/-- What CONSTRUCT writes when its SET_LOW is answered ok (R33, R90). -/
theorem constructed_ok (s : State) (cal : Nat) :
    s.constructed cal .ok =
      { s with
        cal := some cal, line := .low, mode := .idle, fault := false, trace := [.set .low .ok]
        results := s.results ++ [.ok] } := rfl

/-! ### The obligations of 70_reset_and_hazards.md -/

/-- Settles O25: an asserted reset holds the block in Absent, where the elements of a WRITE hold no value; the
construction writes the others. -/
theorem resetReleaseConstructs : Obligations.ResetReleaseConstructs := by
  intro s hi hr hn ha
  have hm : s.mode = .absent := hi.rst_absent hr
  have hseq : s.seq = none := by simpa [hm] using hi.seq_transmitting
  obtain ⟨hshreg, -⟩ := hi.outside_write (by simp [hm])
  refine ⟨_, step_releaseReset hr hn hm, ?_⟩
  rw [ha, constructed_ok]
  exact ⟨rfl, rfl, rfl, rfl, rfl, hseq, hi.dcnt_empty, hshreg, rfl, rfl⟩

/-- Settles O26: the assertion leaves Absent with `rst` held, so its release is a construction. -/
theorem resetCutsAWrite : Obligations.ResetCutsAWrite := by
  intro s h
  refine ⟨_, step_assertReset h, rfl, rfl, rfl, rfl, rfl, fun hn ha => ?_⟩
  have hrelease := step_releaseReset rfl hn rfl
  rw [ha, constructed_ok] at hrelease
  exact ⟨_, (runSteps_succ 1 (step_assertReset h)).trans (runSteps_succ 0 hrelease), rfl, rfl⟩

end Sys2Proof.Machine
end

section
/-! PROOFS. Operation words (30_encoding.md): decoding undoes encoding, and encoding undoes decoding. -/

namespace Sys2Proof

/-! ### The selecting byte and the operand of a known width -/

/-- A word of format SYMBOL is its wire bit in a byte (R73). -/
theorem decodeSymbol_ok {bs : List Byte} {i : Instr} (h : decodeSymbol bs = .ok i) :
    ∃ x : Bool, bs = [if x then 1 else 0] ∧ i = if x then .sym1 else .sym0 := by
  unfold decodeSymbol at h
  split at h
  · split at h
    · rename_i x hx; cases h; exact ⟨x, by rw [decodeSelector_ok hx], rfl⟩
    · cases h
  · cases h

/-- A word of format PINOP is its level in a byte (R82). -/
theorem decodePinop_ok {bs : List Byte} {i : Instr} (h : decodePinop bs = .ok i) :
    ∃ x : Bool, bs = [if x then 1 else 0] ∧ i = if x then .setHigh else .setLow := by
  unfold decodePinop at h
  split at h
  · split at h
    · rename_i x hx; cases h; exact ⟨x, by rw [decodeSelector_ok hx], rfl⟩
    · cases h
  · cases h

/-- A word of format HOSTOP is a CONSTRUCT of `W_CAL` bits or a WRITE (R81). -/
theorem decodeHostop_ok {wCal : Nat} {bs : List Byte} {i : Instr} (h : decodeHostop wCal bs = .ok i) :
    (∃ rest, bs = 0 :: rest ∧ rest.length = calBytes wCal ∧ leNat rest < 2 ^ wCal ∧ i = .construct (leNat rest)) ∨
    (∃ rest cs, bs = 1 :: rest ∧ decodeColors rest = .ok cs ∧ i = .write cs) := by
  unfold decodeHostop at h
  split at h
  · cases h
  · rename_i op rest
    split at h
    · cases h
    · rename_i hop
      obtain rfl : op = 0 := decodeSelector_ok hop
      split at h
      · rename_i hlen
        split at h
        · rename_i hlt; cases h; exact .inl ⟨rest, rfl, hlen, hlt, rfl⟩
        · cases h
      · cases h
    · rename_i hop
      obtain rfl : op = 1 := decodeSelector_ok hop
      split at h
      · rename_i cs hcs; cases h; exact .inr ⟨rest, cs, rfl, hcs, rfl⟩
      · cases h

/-- A word of format DELAYOP is a cycle count of `W_DLY` bits (R82). -/
theorem decodeDelayop_ok {wCal : Nat} {bs : List Byte} {i : Instr} (h : decodeDelayop wCal bs = .ok i) :
    bs.length = delayBytes wCal ∧ leNat bs < 2 ^ delayWidth wCal ∧ i = .delay (leNat bs) := by
  unfold decodeDelayop at h
  split at h
  · rename_i hlen
    split at h
    · rename_i hlt; cases h; exact ⟨hlen, hlt, rfl⟩
    · cases h
  · cases h

theorem decodeColorRgb_ok {bs : List Byte} {i : Instr} (h : decodeColorRgb bs = .ok i) :
    ∃ r g b, bs = [b, g, r] ∧ i = .color r g b := by
  unfold decodeColorRgb at h
  split at h
  · rename_i b g r; cases h; exact ⟨r, g, b, rfl, rfl⟩
  · cases h

theorem decodeByte8_ok {bs : List Byte} {i : Instr} (h : decodeByte8 bs = .ok i) : ∃ v, bs = [v] ∧ i = .byte v := by
  unfold decodeByte8 at h
  split at h
  · rename_i v; cases h; exact ⟨v, rfl, rfl⟩
  · cases h

theorem decodeGap_ok {bs : List Byte} {i : Instr} (h : decodeGap bs = .ok i) : bs = [] ∧ i = .gap := by
  unfold decodeGap at h
  split at h
  · cases h; exact ⟨rfl, rfl⟩
  · cases h

/-! ### The obligations of 30_encoding.md -/

/-- Settles O1: ten fixed words, decoded by evaluation. -/
theorem specWordsDecode : Obligations.SpecWordsDecode := by
  unfold Obligations.SpecWordsDecode
  decide

/-- Settles O2, by the operation: the operands of a known width fit their bytes, and the colours are read back one by
one. -/
theorem decodeOfEncodeIsTheOperation : Obligations.DecodeOfEncodeIsTheOperation := by
  intro wCal i hwf
  cases i with
  | construct cal =>
    have hlt : cal < 2 ^ wCal := of_decide_eq_true hwf
    have hback : leNat (leBytes (calBytes wCal) cal) = cal := leNat_leBytes_bytesFor hlt
    simp [decode, encode, decodeHostop, decodeSelector, length_leBytes, hback, hlt]
  | write cs => simp [decode, encode, decodeHostop, decodeSelector, decodeColors_encodeColors]
  | color r g b => rfl
  | byte v => rfl
  | sym1 => rfl
  | sym0 => rfl
  | gap => rfl
  | setHigh => rfl
  | setLow => rfl
  | delay n =>
    have hlt : n < 2 ^ delayWidth wCal := of_decide_eq_true hwf
    have hback : leNat (leBytes (delayBytes wCal) n) = n := leNat_leBytes_bytesFor hlt
    simp [decode, encode, decodeDelayop, length_leBytes, hback, hlt]

/-- Settles O3, by the format: what each format's decoder accepts is spelled back byte by byte. -/
theorem everyDecodableWordIsItsEncoding : Obligations.EveryDecodableWordIsItsEncoding := by
  rintro wCal ⟨fmt, bs⟩ i h
  cases fmt with
  | hostop =>
    obtain ⟨rest, rfl, hlen, hlt, rfl⟩ | ⟨rest, cs, rfl, hcs, rfl⟩ := decodeHostop_ok h
    · exact ⟨by rw [encode, ← hlen, leBytes_leNat], decide_eq_true hlt⟩
    · exact ⟨by rw [encode, encodeColors_of_decodeColors rest cs hcs], rfl⟩
  | colorRgb => obtain ⟨r, g, b, rfl, rfl⟩ := decodeColorRgb_ok h; exact ⟨rfl, rfl⟩
  | byte8 => obtain ⟨v, rfl, rfl⟩ := decodeByte8_ok h; exact ⟨rfl, rfl⟩
  | symbol => obtain ⟨x, rfl, rfl⟩ := decodeSymbol_ok h; cases x <;> exact ⟨rfl, rfl⟩
  | gap => obtain ⟨rfl, rfl⟩ := decodeGap_ok h; exact ⟨rfl, rfl⟩
  | pinop => obtain ⟨x, rfl, rfl⟩ := decodePinop_ok h; cases x <;> exact ⟨rfl, rfl⟩
  | delayop =>
    obtain ⟨hlen, hlt, rfl⟩ := decodeDelayop_ok h
    exact ⟨by rw [encode, ← hlen, leBytes_leNat], decide_eq_true hlt⟩

end Sys2Proof
end

section
/-! PROOFS. Single operations: what the primitives, the micro-operations and the host operations do and leave unchanged,
the delay arguments, and that no step writes the configuration. -/

namespace Sys2Proof.Machine

/-! ### The primitives -/

/-- Settles O9: of the operations of the two formats, two are a transition and one is a DELAY. -/
theorem primitivesLeaveTheRestUnchanged : Obligations.PrimitivesLeaveTheRestUnchanged := by
  intro i s t hi h
  cases i with
  | setHigh => cases h; simp [pinSet_eq, memRead, Instr.format]
  | setLow => cases h; simp [pinSet_eq, memRead, Instr.format]
  | delay n => cases h; simp [memRead, Instr.format]
  | _ => simp [Instr.format] at hi

/-! ### The delay arguments -/

/-- What a symbol's DELAY reads is the value of one of the two bits. -/
theorem exists_bit_of_map_bitAt {ch : Channel} {k : Fin 8} {s : State} {f : Bool → Nat} {n : Nat}
    (h : (bitAt ch k s).map f = .ok n) : ∃ bit, n = f bit := by
  cases hb : bitAt ch k s with
  | error e => rw [hb] at h; cases h
  | ok bit => rw [hb] at h; cases h; exact ⟨bit, rfl⟩

/-- The argument of a position's DELAY is one of the three products of CAL (R74, R92). -/
theorem delayArgument_cases {s : State} {p : Pos} {c n : Nat} (hc : s.cal = some c) (hp : p.transition = none)
    (hn : delayArgument p s = .ok n) : n = longCycles s.cfg c ∨ n = shortCycles s.cfg c ∨ n = gapCycles s.cfg c := by
  obtain ⟨i, ch, k, rfl⟩ | ⟨i, ch, k, rfl⟩ | rfl := delay_position_cases hp
  · simp only [delayArgument, hc] at hn
    obtain ⟨bit, rfl⟩ := exists_bit_of_map_bitAt hn
    cases bit <;> simp [hiCycles]
  · simp only [delayArgument, hc] at hn
    obtain ⟨bit, rfl⟩ := exists_bit_of_map_bitAt hn
    cases bit <;> simp [loCycles]
  · rw [delayArgument_gap hc] at hn
    cases hn
    exact .inr (.inr rfl)

/-- A delay argument of the sequencer fits `W_DLY` bits (R116). -/
theorem delayArgument_lt {s : State} {p : Pos} {c n : Nat} (hc : s.cal = some c) (hlt : c < 2 ^ s.cfg.params.wCal)
    (hp : p.transition = none) (hn : delayArgument p s = .ok n) : n < 2 ^ s.cfg.params.wDly := by
  obtain ⟨_, hls, _, _, hl, hr⟩ := Config.legal_bounds s.cfg
  obtain rfl | rfl | rfl := delayArgument_cases hc hp hn
  · exact product_lt_delayWidth hl hlt
  · exact product_lt_delayWidth (by omega) hlt
  · exact product_lt_delayWidth hr hlt

/-- Settles O20: the argument is one of three products, each of a multiplier of at most 511. -/
theorem delayArgumentsNeverWrap : Obligations.DelayArgumentsNeverWrap := by
  intro s p c n hc hlt hp hn
  have hcases := delayArgument_cases hc hp hn
  refine ⟨delayArgument_lt hc hlt hp hn, hcases, ?_⟩
  rintro rfl
  simpa [longCycles, shortCycles, gapCycles] using hcases

/-- Settles O21: the 60 % constraint on the multipliers, times CAL. -/
theorem highFractionsMeetTheProperty : Obligations.HighFractionsMeetTheProperty := by
  intro cfg c
  obtain ⟨_, _, hfrac, _⟩ := Config.legal_bounds cfg
  have hscaled := Nat.mul_le_mul_right c hfrac
  simp only [Nat.add_mul, Nat.mul_assoc] at hscaled
  simp only [hiCycles, loCycles, longCycles, shortCycles, if_true, Bool.false_eq_true, if_false]
  refine ⟨by omega, by omega, ?_⟩
  rintro rfl
  simp only [Config.taken]
  omega

/-! ### The micro-operations -/

theorem allOk_gapTransitions {s : State} (h : s.cfg.params.gapSetLow = true → s.answerAt 0 = .ok) :
    AllOk (gapTransitions s.cfg) s := by
  intro k hk
  cases hg : s.cfg.params.gapSetLow with
  | false => simp [gapTransitions, hg] at hk
  | true =>
    obtain rfl : k = 0 := by simpa [gapTransitions, hg] using hk
    exact h hg

/-- Settles O14: the three cases of the gap. -/
theorem gapHoldsTheLineLow : Obligations.GapHoldsTheLineLow := by
  intro s c hc
  have hexec : exec .gap s = .next (settle (sendGap c s)) := withCal_eq hc _
  refine ⟨fun hg ha => ?_, fun hg ha => ?_, fun hg => ?_⟩
  · rw [hexec, sendGap_eq_emitted c (allOk_gapTransitions fun _ => ha)]
    simp [State.emitted, gapTransitions, gapEvents, hg, lineAfter, gapCycles]
  · rw [hexec, sendGap_fault c hg ha]
    rfl
  · rw [hexec, sendGap, hg]
    rfl

/-- A colour cut by its first fault: the abort forgets the SHREG that COLOR loads (R28, R152). -/
theorem settle_sendColor_fault (c : Nat) (col : Color) {s : State} {t : Nat} (hf : FirstFaultAt t s) (ht : t ≤ 48) :
    settle (sendColor c col s) = s.aborted t (((wireBits col).flatMap (symbolEvents s.cfg c)).take (2 * t - 2) ++
      [.set (if t % 2 = 1 then .high else .low) .fault]) := by
  rw [sendColor_eq]
  exact settle_sendBits_fault c (bits := wireBits col) (s := s.withShreg (some (wireWord col))) hf ht

/-- Settles O15: a BYTE and a COLOR are runs of symbols. -/
theorem faultInsideByteOrColorAborts : Obligations.FaultInsideByteOrColorAborts := by
  intro s c t hc hf
  simp only [List.append_assoc]
  exact ⟨fun v ht => (withCal_eq hc _).trans (congrArg _ (settle_sendBits_fault c (bits := byteBits v) hf ht)),
    fun r g b ht => (withCal_eq hc _).trans (congrArg _ (settle_sendColor_fault c ⟨r, g, b⟩ hf ht))⟩

/-- The state once the events `es`, `n` of them transitions, are issued, the last a DELAY, and the line is at `l`. -/
def State.issued (s : State) (n : Nat) (l : Line) (es : List Event) : State :=
  { s.consume n with line := l, dcnt := none, trace := s.trace ++ es }

/-- The two ends of a micro-operation: all its events are issued, or PinFault aborts it. -/
def MicroEnds (s t : State) : Prop :=
  (∃ n l es, t = s.issued n l es) ∨ ∃ n es, t = s.aborted n es

theorem microEnds_sendBits (c : Nat) {bits : List Bool} (hne : bits ≠ []) (s : State) :
    MicroEnds s (settle (sendBits c bits s)) := by
  by_cases hok : AllOk (2 * bits.length) s
  · rw [settle_sendBits_ok c hne hok]
    exact .inl ⟨_, _, _, rfl⟩
  · obtain ⟨t, ht, hf⟩ := exists_firstFaultAt hok
    rw [settle_sendBits_fault c hf ht]
    exact .inr ⟨_, _, rfl⟩

theorem microEnds_sendBit (c : Nat) (bit : Bool) (s : State) : MicroEnds s (settle (sendBit c bit s)) :=
  sendBits_singleton c bit s ▸ microEnds_sendBits c (List.cons_ne_nil bit []) s

theorem microEnds_sendColor (c : Nat) (col : Color) (s : State) :
    MicroEnds (s.withShreg (some (wireWord col))) (settle (sendColor c col s)) := by
  rw [sendColor_eq]
  exact microEnds_sendBits c (bits := wireBits col) (by simp [wireBits, byteBits]) _

theorem microEnds_sendGap (c : Nat) (s : State) : MicroEnds s (settle (sendGap c s)) := by
  by_cases hok : s.cfg.params.gapSetLow = true → s.answerAt 0 = .ok
  · rw [sendGap_eq_emitted c (allOk_gapTransitions hok)]
    exact .inl ⟨_, _, _, rfl⟩
  · obtain ⟨hg, hne⟩ := Classical.not_imp.mp hok
    cases ha : s.answerAt 0 with
    | ok => exact absurd ha hne
    | fault =>
      rw [sendGap_fault c hg ha]
      exact .inr ⟨1, [.set .low .fault], rfl⟩

/-- A meaning that reads CAL answers a next state only when CAL has a value. -/
theorem withCal_next {s t : State} {f : Nat → State} (h : withCal s f = .next t) : ∃ c, s.cal = some c ∧ t = f c := by
  unfold withCal at h
  split at h
  · rename_i c hc; cases h; exact ⟨c, hc, rfl⟩
  · cases h

/-- Each micro-operation ends in one of the two ways, with SHREG as it was but for COLOR (R110 to R114). -/
theorem exec_micro_next {i : Instr} {s t : State}
    (hi : i.format = .symbol ∨ i.format = .byte8 ∨ i.format = .colorRgb ∨ i.format = .gap) (h : exec i s = .next t) :
    ∃ x, (i.format ≠ .colorRgb → x = s.shreg) ∧ MicroEnds (s.withShreg x) t := by
  cases i with
  | sym1 => obtain ⟨c, _, rfl⟩ := withCal_next h; exact ⟨_, fun _ => rfl, microEnds_sendBit c true s⟩
  | sym0 => obtain ⟨c, _, rfl⟩ := withCal_next h; exact ⟨_, fun _ => rfl, microEnds_sendBit c false s⟩
  | byte v => obtain ⟨c, _, rfl⟩ := withCal_next h; exact ⟨_, fun _ => rfl, microEnds_sendBits c (by simp [byteBits]) s⟩
  | color r g b => obtain ⟨c, _, rfl⟩ := withCal_next h; exact ⟨_, fun hne => absurd rfl hne, microEnds_sendColor c _ s⟩
  | gap => obtain ⟨c, _, rfl⟩ := withCal_next h; exact ⟨_, fun _ => rfl, microEnds_sendGap c s⟩
  | _ => simp [Instr.format] at hi

/-- Settles O16, by the two ends of a micro-operation. -/
theorem microOperationsLeaveTheRestUnchanged : Obligations.MicroOperationsLeaveTheRestUnchanged := by
  intro i s t hi h
  obtain ⟨x, hx, ⟨n, l, es, rfl⟩ | ⟨n, es, rfl⟩⟩ := exec_micro_next hi h
  · refine ⟨rfl, rfl, rfl, rfl, rfl, rfl, ⟨_, rfl⟩, rfl, .inl ?_⟩
    split
    · rfl
    · rename_i hne
      rw [hx hne]
      rfl
  · exact ⟨rfl, rfl, rfl, rfl, rfl, rfl, ⟨_, rfl⟩, rfl, .inr rfl⟩

/-! ### The host operations -/

theorem constructed_fault (s : State) (cal : Nat) :
    s.constructed cal .fault =
      { s with line := .unknown, trace := [.set .low .fault], results := s.results ++ [.pinFault] } := rfl

theorem execConstruct_not_absent {s : State} (h : s.mode ≠ .absent) (cal : Nat) :
    exec (.construct cal) s = .refused .notAdmitted := by
  cases hm : s.mode with
  | absent => exact absurd hm h
  | idle => simp [exec, execConstruct, hm]
  | transmitting => simp [exec, execConstruct, hm]

theorem execWrite_not_idle {s : State} (h : s.mode ≠ .idle) (cs : List Color) :
    exec (.write cs) s = .refused .notAdmitted := by
  cases hm : s.mode with
  | idle => exact absurd hm h
  | absent => simp [exec, execWrite, hm]
  | transmitting => simp [exec, execWrite, hm]

/-- Settles O22: CONSTRUCT by its mode and its one answer. -/
theorem constructFollowsItsPseudocode : Obligations.ConstructFollowsItsPseudocode := by
  intro s cal
  refine ⟨fun hm ha => ?_, fun hm ha => ?_, fun hm t => ?_⟩
  · rw [execConstruct_absent hm, ha, constructed_ok]
    rfl
  · rw [execConstruct_absent hm, ha, constructed_fault]
    exact ⟨_, rfl, rfl, rfl⟩
  · rw [execConstruct_not_absent hm]
    exact nofun

/-- Settles O44: each operation answers one update of the state, which names the fields it writes. -/
theorem hostOperationsLeaveTheRestUnchanged : Obligations.HostOperationsLeaveTheRestUnchanged := by
  refine ⟨fun s t cs h => ?_, fun s t cal h => ?_⟩
  · obtain ⟨_, rfl⟩ := execWrite_next h
    rfl
  · obtain ⟨_, rfl⟩ := execConstruct_next h
    cases s.answerAt 0 <;> rfl

/-! ### The configuration -/

/-- What no operation, no step and no reset writes: the configuration and the port `cal_init` (R30). -/
def SameInputs (s t : State) : Prop :=
  t.cfg = s.cfg ∧ t.calInit = s.calInit

theorem sameInputs_micro {i : Instr} {s t : State}
    (hi : i.format = .symbol ∨ i.format = .byte8 ∨ i.format = .colorRgb ∨ i.format = .gap) (h : exec i s = .next t) :
    SameInputs s t := by
  obtain ⟨x, _, ⟨n, l, es, rfl⟩ | ⟨n, es, rfl⟩⟩ := exec_micro_next hi h <;> exact ⟨rfl, rfl⟩

theorem sameInputs_exec {i : Instr} {s t : State} (h : exec i s = .next t) : SameInputs s t := by
  cases i with
  | construct cal => obtain ⟨_, rfl⟩ := execConstruct_next h; cases s.answerAt 0 <;> exact ⟨rfl, rfl⟩
  | write cs => obtain ⟨_, rfl⟩ := execWrite_next h; exact ⟨rfl, rfl⟩
  | color r g b => exact sameInputs_micro (by simp [Instr.format]) h
  | byte v => exact sameInputs_micro (by simp [Instr.format]) h
  | sym1 => exact sameInputs_micro (by simp [Instr.format]) h
  | sym0 => exact sameInputs_micro (by simp [Instr.format]) h
  | gap => exact sameInputs_micro (by simp [Instr.format]) h
  | setHigh => cases h; exact ⟨rfl, rfl⟩
  | setLow => cases h; exact ⟨rfl, rfl⟩
  | delay n => cases h; exact ⟨rfl, rfl⟩

theorem sameInputs_sequencerStep {p : Pos} {s t : State} (h : sequencerStep p s = .next t) : SameInputs s t := by
  obtain ⟨l, q, u, _, hu, ⟨_, rfl⟩ | ⟨_, rfl⟩⟩ | ⟨hp, n, _, rfl⟩ := sequencerStep_next h
  · obtain ⟨x, rfl⟩ := loadColor_writes_shreg hu; exact ⟨rfl, rfl⟩
  · obtain ⟨x, rfl⟩ := loadColor_writes_shreg hu; exact ⟨rfl, rfl⟩
  · obtain ⟨i, ch, k, rfl⟩ | ⟨i, ch, k, rfl⟩ | rfl := delay_position_cases hp <;> exact ⟨rfl, rfl⟩

/-- Settles O53, by the cases of a step. -/
theorem noStepChangesTheConfiguration : Obligations.NoStepChangesTheConfiguration := by
  intro s t h
  obtain ⟨_, rfl⟩ | ⟨_, _, he⟩ | ⟨_, _, ⟨p, _, _, hrow⟩ | ⟨_, _, rfl⟩ | ⟨w, rest, i, _, _, _, _, he⟩⟩ := step_next h
  · exact ⟨rfl, rfl⟩
  · have hsame := sameInputs_exec he; exact hsame
  · have hsame := sameInputs_sequencerStep hrow; exact hsame
  · exact ⟨rfl, rfl⟩
  · have hsame := sameInputs_exec he; exact hsame

/-! ### One step -/

theorem mayIssue_iff {i : Instr} {m : Mode} : mayIssue i m = true ↔ i.format = .hostop ∨ m = .transmitting := by
  simp [mayIssue]

/-- With no position, a step takes the next word of HOST's queue. -/
theorem stepRunning_word {s : State} {w : OpWord} {rest : List OpWord} {i : Instr} (hpos : s.position = none)
    (hq : s.pending = w :: rest) (hd : decode s.cfg.params.wCal w = .ok i) :
    stepRunning s =
      if mayIssue i s.mode then exec i { s with pending := rest } else .refused .hostCannotIssue := by
  simp only [stepRunning, hpos, hq, hd]

/-- With no position and no word the block stays as it is (R193). -/
theorem stepRunning_no_word {s : State} (hpos : s.position = none) (hq : s.pending = []) :
    stepRunning s = .next s := by
  simp only [stepRunning, hpos, hq]

/-- Settles O4: with no position, the step takes the head of the queue. -/
theorem stepRunsTheDecodedOperation : Obligations.StepRunsTheDecodedOperation := by
  intro s hn hpos
  rw [step_eq_running hn]
  refine ⟨fun w rest i hq hd _ => ?_, fun hq => stepRunning_no_word hpos hq⟩
  have hword := stepRunning_word (s := s.popRst) hpos hq hd
  refine ⟨fun hmay => hword.trans (if_pos (mayIssue_iff.mpr hmay)), fun hf hm => hword.trans (if_neg fun hmay => ?_)⟩
  exact (mayIssue_iff.mp hmay).elim hf hm

/-- Settles O5: the row of a transition, and the row of a DELAY. -/
theorem sequencerIssuesThePrimitives : Obligations.SequencerIssuesThePrimitives := by
  refine fun s p hn hm hs => ⟨fun l q u hp hu ha => ?_, fun n hp hd => ⟨_, exec_delay n _, step_delay hn hm hs hp hd⟩⟩
  have hstep := step_transition hn hm hs hp hu
  have hau : u.answerAt 0 = .ok := by
    obtain ⟨x, rfl⟩ := loadColor_writes_shreg hu
    exact ha
  refine ⟨(pinSet l u).1, by cases l <;> rfl, ?_⟩
  rw [hstep, pinSet_eq, hau, ha]
  rfl

end Sys2Proof.Machine
end

section
/-! PROOFS. The invariant of the state: where it holds at first, what follows from it at each step, and what a step does
to CAL, LINE and FAULT. -/

namespace Sys2Proof.Machine

/-! ### The invariant -/

/-- Settles O45: the step's cases, each an operation that keeps the invariant. -/
theorem everyStepKeepsTheInvariant : Obligations.EveryStepKeepsTheInvariant := fun _ _ hi h => hi.step h

/-- The table of R33 holds no position, so the clauses about SEQ ask nothing; CAL is a word of `W_CAL` bits. -/
theorem State.reset_inv : State.reset.Inv := by
  have hw := (Config.calInit Config.taken.params.wCal).isLt
  constructor
  case cal_width => rintro _ ⟨⟩; exact hw
  case cal_init_width => exact hw
  all_goals simp [State.reset]

theorem State.beforeConstruction_inv {cfg : Config} {ci : Nat} (h : ci < 2 ^ cfg.params.wCal) :
    (State.beforeConstruction cfg ci).Inv := by
  constructor
  case cal_init_width => exact h
  all_goals simp [State.beforeConstruction]

/-- Settles O46: both states hold no position, and their CAL and `cal_init` have their widths. -/
theorem resetMeetsTheInvariant : Obligations.ResetMeetsTheInvariant :=
  ⟨State.reset_inv, fun _ _ => State.beforeConstruction_inv⟩

/-! ### No fault -/

/-- CONSTRUCT and WRITE, HOST's own operations, never fault. -/
theorem exec_hostop_ne_fault {i : Instr} (h : i.format = .hostop) (s : State) (f : Fault) : exec i s ≠ .fault f := by
  cases i with
  | construct cal => simp only [exec, execConstruct]; split <;> simp
  | write cs => simp only [exec, execWrite]; split <;> simp
  | _ => cases h

/-- At a position whose operands are in place, the row of the table answers a next state. -/
theorem State.Stands.exists_sequencerStep {s : State} {p : Pos} {c : Nat} (h : s.Stands p) (hc : s.cal = some c) :
    ∃ t, sequencerStep p s = .next t := by
  cases hp : p.transition with
  | some lq => obtain ⟨u, hu⟩ := h.exists_loadColor; exact ⟨_, by simp only [sequencerStep, hp, hu]; rfl⟩
  | none => obtain ⟨n, hn⟩ := h.exists_delayArgument hc hp; exact ⟨_, by simp only [sequencerStep, hp, hn]; rfl⟩

/-- A running WRITE has a position, with its operands in place (R21, R24, R28). -/
theorem State.Inv.exists_position {s : State} (hi : s.Inv) (hm : s.mode = .transmitting) :
    ∃ p c, s.seq = some p ∧ s.Stands p ∧ s.cal = some c := by
  obtain ⟨p, hp⟩ := Option.isSome_iff_exists.mp (hi.seq_transmitting.mpr hm)
  obtain ⟨c, hc⟩ := Option.isSome_iff_exists.mp (hi.cal_constructed.mpr (by simp [hm]))
  exact ⟨p, c, hp, hi.stands hp, hc⟩

theorem State.Inv.stepRunning_ne_fault {s : State} (hi : s.Inv) (f : Fault) : stepRunning s ≠ .fault f := by
  by_cases hm : s.mode = .transmitting
  · obtain ⟨p, c, hp, hst, hc⟩ := hi.exists_position hm
    obtain ⟨t, ht⟩ := hst.exists_sequencerStep hc
    simp [stepRunning, position_eq_some.mpr ⟨hm, hp⟩, ht]
  · have hpos : s.position = none := by
      cases hp : s.position with
      | none => rfl
      | some p => exact absurd (position_eq_some.mp hp).1 hm
    simp only [stepRunning, hpos]
    split
    · simp
    · split
      · simp
      · split
        · rename_i i _ hmay
          exact exec_hostop_ne_fault ((mayIssue_iff.mp hmay).resolve_right hm) _ f
        · simp

/-- Settles O47: a WRITE's position has its operands in place, and HOST's own operations never fault. -/
theorem noReachedStateFaults : Obligations.NoReachedStateFaults := by
  intro s f hi
  unfold step
  split
  · simp
  · exact exec_hostop_ne_fault rfl _ f
  · exact hi.popRst.stepRunning_ne_fault f

/-! ### CAL, LINE and FAULT -/

@[simp] theorem State.withSeq_mode (s : State) (x : Option Pos) : (s.withSeq x).mode = s.mode := rfl
@[simp] theorem State.withSeq_trace (s : State) (x : Option Pos) : (s.withSeq x).trace = s.trace := rfl
@[simp] theorem State.withShreg_mode (s : State) (x : Option Word24) : (s.withShreg x).mode = s.mode := rfl
@[simp] theorem State.withShreg_trace (s : State) (x : Option Word24) : (s.withShreg x).trace = s.trace := rfl
@[simp] theorem State.withShreg_results (s : State) (x : Option Word24) : (s.withShreg x).results = s.results := rfl

/-- Everything a step of a running WRITE can do, by what becomes of the WRITE: a reset cuts it, a transition moves or
aborts it, a DELAY moves it, or the gap's DELAY completes it. -/
theorem State.Inv.step_write_cases {s t : State} (hi : s.Inv) (hm : s.mode = .transmitting)
    (h : Machine.step s = .next t) :
    (s.rstNow = true ∧ t = s.popRst.assertReset) ∨
    (∃ l x q, t = (((s.popRst.withShreg x).consume 1).answered l .ok).withSeq (some q)) ∨
    (∃ l x, t = (((s.popRst.withShreg x).consume 1).answered l .fault).raisePinFault) ∨
    (∃ n q, t = (Machine.delayFor n s.popRst).withSeq (some q)) ∨
    (s.seq = some (.gap .delay) ∧ ∃ n, t = (Machine.delayFor n s.popRst).completeWrite) := by
  obtain ⟨hr, ht⟩ | ⟨_, hm', _⟩ | ⟨_, _, _, p, hs, hrow⟩ | ⟨_, _, hm', _⟩ | ⟨_, _, hm', _⟩ := step_next_of_inv hi h
  · exact .inl ⟨hr, ht⟩
  · simp [hm] at hm'
  · obtain ⟨l, q, u, _, hu, ⟨_, ht⟩ | ⟨_, ht⟩⟩ | ⟨hp, n, _, ht⟩ := hrow
    · obtain ⟨x, rfl⟩ := loadColor_writes_shreg hu; exact .inr (.inl ⟨l, x, q, ht⟩)
    · obtain ⟨x, rfl⟩ := loadColor_writes_shreg hu; exact .inr (.inr (.inl ⟨l, x, ht⟩))
    · obtain ⟨i, ch, k, rfl⟩ | ⟨i, ch, k, rfl⟩ | rfl := delay_position_cases hp
      · exact .inr (.inr (.inr (.inl ⟨n, _, ht⟩)))
      · exact .inr (.inr (.inr (.inl ⟨n, _, ht⟩)))
      · exact .inr (.inr (.inr (.inr ⟨hs, n, ht⟩)))
  · exact absurd hm hm'
  · simp [hm] at hm'

/-- Everything a step outside a WRITE can do: a reset, a CONSTRUCT in Absent with its argument, nothing, or the start of
a WRITE in Idle. -/
theorem State.Inv.step_host_cases {s t : State} (hi : s.Inv) (hm : s.mode ≠ .transmitting)
    (h : Machine.step s = .next t) :
    (s.rstNow = true ∧ t = s.popRst.assertReset) ∨
    (s.mode = .absent ∧ ∃ cal pend,
      ((s.rst = true ∧ cal = s.calInit) ∨
        ∃ w rest, s.pending = w :: rest ∧ decode s.cfg.params.wCal w = .ok (.construct cal)) ∧
      t = (({ s.popRst with rst := false, pending := pend } : State).consume 1).constructed cal (s.answerAt 0)) ∨
    t = s.popRst ∨
    (s.mode = .idle ∧ ∃ pend cs, t = ({ s.popRst with pending := pend } : State).startWrite cs.length cs) := by
  obtain h | ⟨_, h⟩ | ⟨_, _, hm', _⟩ | ⟨_, _, _, h⟩ | ⟨_, _, hmi, _, rest, cs, _, _, h⟩ := step_next_of_inv hi h
  · exact .inl h
  · exact .inr (.inl h)
  · exact absurd hm' hm
  · exact .inr (.inr (.inl h))
  · exact .inr (.inr (.inr ⟨hmi, rest, cs, h⟩))

/-- With `CAL_STEP = 0` the end of a WRITE leaves a CAL of `W_CAL` bits (R98). -/
theorem nextCal_of_calStep_zero {cfg : Config} {c : Nat} (h0 : cfg.params.calStep = 0)
    (hc : c < 2 ^ cfg.params.wCal) : nextCal cfg c = c := by
  rw [nextCal, h0, Nat.add_zero, Nat.mod_eq_of_lt hc]

theorem State.Inv.map_nextCal {s : State} (hi : s.Inv) (h0 : s.cfg.params.calStep = 0) :
    s.cal.map (nextCal s.cfg) = s.cal := by
  cases hc : s.cal with
  | none => rfl
  | some c => exact congrArg some (nextCal_of_calStep_zero h0 (hi.cal_width c hc))

/-- Settles O50, by the cases of a step inside and outside a WRITE. -/
theorem calIsWrittenOnlyAsListed : Obligations.CalIsWrittenOnlyAsListed := by
  intro s t hi h
  refine ⟨fun hm => by simpa [hm] using hi.cal_constructed, ?_⟩
  by_cases hm : s.mode = .transmitting
  · obtain ⟨hr, rfl⟩ | ⟨l, x, q, rfl⟩ | ⟨l, x, rfl⟩ | ⟨n, q, rfl⟩ | ⟨hs, n, rfl⟩ := hi.step_write_cases hm h
    · exact ⟨.inr (.inr (.inr ⟨hr, rfl, rfl⟩)), by simp, by simp [hr]⟩
    · exact ⟨.inl rfl, fun _ => rfl, fun _ _ _ => rfl⟩
    · exact ⟨.inl rfl, fun _ => rfl, fun _ _ _ => rfl⟩
    · exact ⟨.inl rfl, fun _ => rfl, fun _ _ _ => rfl⟩
    · exact ⟨.inr (.inr (.inl ⟨hs, rfl, rfl, rfl⟩)), by simp, fun h0 _ _ => hi.map_nextCal h0⟩
  · obtain ⟨hr, rfl⟩ | ⟨hma, cal, pend, hcal, ht⟩ | rfl | ⟨_, pend, cs, rfl⟩ := hi.step_host_cases hm h
    · exact ⟨.inr (.inr (.inr ⟨hr, rfl, rfl⟩)), by simp, by simp [hr]⟩
    · cases ha : s.answerAt 0 <;> rw [ha] at ht <;> subst ht
      · refine ⟨.inr (.inl ⟨hma, rfl, ?_⟩), nofun, fun _ hne => absurd hma hne⟩
        obtain ⟨hr, rfl⟩ | ⟨w, rest, hq, hd⟩ := hcal
        · exact .inl ⟨hr, rfl⟩
        · exact .inr ⟨w, rest, cal, hq, hd, rfl⟩
      · exact ⟨.inl rfl, fun _ => rfl, fun _ _ _ => rfl⟩
    · exact ⟨.inl rfl, fun _ => rfl, fun _ _ _ => rfl⟩
    · exact ⟨.inl rfl, fun _ => rfl, fun _ _ _ => rfl⟩

/-- Settles O51: the cases of a step, of which the transitions and the resets alone write LINE; in Absent the invariant
says the level. -/
theorem onlyTransitionsMoveTheLine : Obligations.OnlyTransitionsMoveTheLine := by
  intro s t hi h
  refine and_assoc.mp ⟨?_, (hi.step h).absent_unknown⟩
  by_cases hm : s.mode = .transmitting
  · obtain ⟨hr, rfl⟩ | ⟨l, x, q, rfl⟩ | ⟨l, x, rfl⟩ | ⟨n, q, rfl⟩ | ⟨hs, n, rfl⟩ := hi.step_write_cases hm h
    · exact ⟨.inr (.inr ⟨hr, rfl, rfl⟩), by simp [hm]⟩
    · exact ⟨.inr (.inl ⟨l, .ok, by simp, fun _ => rfl, by cases l <;> rfl⟩), by simp [hm]⟩
    · exact ⟨.inr (.inl ⟨l, .fault, by simp, fun _ => rfl, by cases l <;> rfl⟩), by simp [hm]⟩
    · exact ⟨.inl rfl, by simp [hm]⟩
    · exact ⟨.inl rfl, by simp [hm]⟩
  · obtain ⟨hr, rfl⟩ | ⟨hma, cal, pend, _, ht⟩ | rfl | ⟨hmi, pend, cs, rfl⟩ := hi.step_host_cases hm h
    · exact ⟨.inr (.inr ⟨hr, rfl, rfl⟩), by simp⟩
    · cases ha : s.answerAt 0 <;> rw [ha] at ht <;> subst ht
      · exact ⟨.inr (.inl ⟨.low, .ok, rfl, fun h => absurd h hm, rfl⟩), fun _ _ => rfl⟩
      · exact ⟨.inr (.inl ⟨.low, .fault, rfl, fun h => absurd h hm, rfl⟩),
          fun _ hidle => absurd (hma.symm.trans hidle) (by simp)⟩
    · exact ⟨.inl rfl, fun hma hidle => absurd (hma.symm.trans hidle) (by simp)⟩
    · exact ⟨.inl rfl, by simp⟩

/-- Settles O52: the invariant keeps FAULT 0 inside a WRITE, whose two ends write it or leave it. -/
theorem faultFlagHoldsTheLastResult : Obligations.FaultFlagHoldsTheLastResult := by
  intro s t hi h
  refine ⟨decide_eq_true_iff, (hi.step h).fault_clear, ?_⟩
  by_cases hm : s.mode = .transmitting
  · refine ⟨fun _ hidle => ?_, by simp [hm], by simp [hm]⟩
    obtain ⟨hr, rfl⟩ | ⟨l, x, q, rfl⟩ | ⟨l, x, rfl⟩ | ⟨n, q, rfl⟩ | ⟨hs, n, rfl⟩ := hi.step_write_cases hm h
    · cases hidle
    · simp [hm] at hidle
    · simp
    · simp [hm] at hidle
    · simp [hi.fault_clear hm]
  · refine ⟨fun h => absurd h hm, ?_⟩
    obtain ⟨hr, rfl⟩ | ⟨hma, cal, pend, _, ht⟩ | rfl | ⟨hmi, pend, cs, rfl⟩ := hi.step_host_cases hm h
    · simp
    · cases ha : s.answerAt 0 <;> rw [ha] at ht <;> subst ht
      · exact ⟨fun hidle => absurd (hma.symm.trans hidle) (by simp), fun _ _ => rfl⟩
      · exact ⟨fun _ _ => rfl, fun _ hidle => absurd (hma.symm.trans hidle) (by simp)⟩
    · exact ⟨fun _ _ => rfl, fun hma hidle => absurd (hma.symm.trans hidle) (by simp)⟩
    · simp

end Sys2Proof.Machine
end

section
/-! PROOFS. Whole WRITEs: the frame of one that returns Ok, two in a row, one colour of one, and that each ends with one
result. -/

namespace Sys2Proof.Machine

/-! ### A WRITE that returns Ok -/

/-- Settles O30: the run of a WRITE answered ok, and CAL's step by its value. -/
theorem writeTransmitsItsFrame : Obligations.WriteTransmitsItsFrame := by
  intro s c cs hm hc hn hok
  have hcal : s.cal.map (nextCal s.cfg) = some (nextCal s.cfg c) := by rw [hc]; rfl
  refine ⟨_, execWrite_idle hm, (runSteps_startWrite_ok hm hc hn hok).trans ?_⟩
  rw [← hcal]
  rfl

/-- Settles O38: both runs append the frame of the colours. -/
theorem writeTraceIsDetermined : Obligations.WriteTraceIsDetermined := by
  intro s t c cs hms hmt hcs hct hcfg hns hnt hoks hokt
  have hs := runSteps_startWrite_ok hms hcs hns hoks
  rw [hcfg] at hs hnt hokt ⊢
  exact ⟨_, _, frameEvents t.cfg c cs, hs, runSteps_startWrite_ok hmt hct hnt hokt, rfl, rfl⟩

/-! ### Two WRITEs in HOST's queue -/

theorem NoReset.after {m n : Nat} {s t : State} (h : NoReset (m + n) s) (hr : t.rst = false)
    (hi : t.rstIn = s.rstIn.drop m) : NoReset n t := by
  refine ⟨hr, fun b hb => h.2 b ?_⟩
  rw [hi, List.take_drop] at hb
  exact List.drop_subset _ _ hb

/-- A state with another queue. -/
def State.withPending (s : State) (rest : List OpWord) : State :=
  { s with pending := rest }

/-- In Idle a step takes a WRITE from the head of HOST's queue and starts it (R92). -/
theorem step_startWrite {s : State} {cs : List Color} {rest : List OpWord} (hn : NoReset 1 s) (hm : s.mode = .idle)
    (hq : s.pending = encode s.cfg.params.wCal (.write cs) :: rest) :
    step s = .next ((s.popRst.withPending rest).startWrite cs.length cs) := by
  have hpos : s.popRst.position = none := by simp [State.position, hm]
  rw [step_eq_running hn, stepRunning_word hpos hq (decodeOfEncodeIsTheOperation _ (.write cs) rfl),
    if_pos (mayIssue_iff.mpr (.inl rfl))]
  exact execWrite_idle hm

/-- The state that a WRITE of the colours `cs` answered ok at the calibration constant `c`, taken from HOST's queue,
leaves: `rest` is the queue after it. -/
def State.wrote (s : State) (c : Nat) (cs : List Color) (rest : List OpWord) : State :=
  { (((s.withPending rest).startWrite cs.length cs).emitted (transitionCount s.cfg cs.length)
      (frameEvents s.cfg c cs)).completeWrite with
    rstIn := s.rstIn.drop (1 + eventCount s.cfg cs.length) }

/-- A WRITE from HOST's queue answered ok: its start and its events, one a step. -/
theorem runSteps_write_ok {s : State} {c : Nat} {cs : List Color} {rest : List OpWord} (hm : s.mode = .idle)
    (hc : s.cal = some c) (hq : s.pending = encode s.cfg.params.wCal (.write cs) :: rest)
    (hn : NoReset (1 + eventCount s.cfg cs.length) s) (hok : AllOk (transitionCount s.cfg cs.length) s) :
    runSteps (1 + eventCount s.cfg cs.length) s = .next (s.wrote c cs rest) := by
  have hstart := step_startWrite (noReset_mono (Nat.le_add_right 1 _) hn) hm hq
  have hrun := runSteps_startWrite_ok (s := s.popRst.withPending rest) hm hc
    (hn.after hn.1 List.drop_one.symm) hok
  have hresets : s.rstIn.drop (1 + eventCount s.cfg cs.length) = s.rstIn.tail.drop (eventCount s.cfg cs.length) := by
    rw [← List.drop_drop, List.drop_one]
  rw [State.wrote, hresets, Nat.add_comm, runSteps_succ _ hstart]
  exact hrun

theorem wrote_cal {s : State} {c : Nat} (hc : s.cal = some c) (cs : List Color) (rest : List OpWord) :
    (s.wrote c cs rest).cal = some (nextCal s.cfg c) :=
  congrArg (Option.map (nextCal s.cfg)) hc

theorem allOk_wrote {s : State} {c n : Nat} {cs : List Color} {rest : List OpWord}
    (h : AllOk (transitionCount s.cfg cs.length + n) s) : AllOk n (s.wrote c cs rest) :=
  (allOk_congr rfl rfl).mpr (allOk_consume h)

/-- Settles O39: the second WRITE runs from where the first ended. -/
theorem backToBackWritesKeepTheirGaps : Obligations.BackToBackWritesKeepTheirGaps := by
  intro s c cs ds hm hc hq hn hok
  have hsum : eventCount s.cfg cs.length + eventCount s.cfg ds.length + 2 =
      (1 + eventCount s.cfg cs.length) + (1 + eventCount s.cfg ds.length) := by omega
  rw [hsum] at hn ⊢
  have hfirst := runSteps_write_ok hm hc hq (noReset_mono (Nat.le_add_right _ _) hn)
    (allOk_mono (Nat.le_add_right _ _) hok)
  have hsecond := runSteps_write_ok (s := s.wrote c cs [encode s.cfg.params.wCal (.write ds)]) rfl
    (wrote_cal hc cs _) rfl (hn.after hn.1 rfl) (allOk_wrote hok)
  refine ⟨_, (runSteps_add _ hfirst).trans hsecond, rfl, ?_, rfl, rfl⟩
  exact List.append_assoc ..

/-! ### One colour -/

/-- A run of symbols answered ok. -/
theorem sendBits_eq_sent (c : Nat) {bits : List Bool} {s : State} (hne : bits ≠ [])
    (hok : AllOk (2 * bits.length) s) :
    sendBits c bits s = (s.sent (2 * bits.length) (bits.flatMap (symbolEvents s.cfg c)), .ok) := by
  cases bits with
  | nil => contradiction
  | cons bit bits => exact sendBits_ok c bit bits s hok

theorem sendColor_ok (c : Nat) (col : Color) {s : State} (hok : AllOk 48 s) :
    sendColor c col s = ((s.withShreg (some (wireWord col))).sent 48 ((wireBits col).flatMap (symbolEvents s.cfg c)),
      .ok) := by
  rw [sendColor_eq]
  exact sendBits_eq_sent c (bits := wireBits col) (s := s.withShreg (some (wireWord col)))
    (by simp [wireBits, byteBits]) hok

/-- Settles O40: the sequencer's run of a colour, whose events are counted. -/
theorem colorIsNinetySixSequencerSteps : Obligations.ColorIsNinetySixSequencerSteps := by
  intro s c i col hn hm hc hs hcol hok
  refine ⟨_, exec_color_ok hc col.r col.g col.b hok, ?_⟩
  have hrun := (follows_sendColor hm hc hs hcol).2
  rw [sendColor_ok c col hok] at hrun
  have hlen : ((s.withShreg (some (wireWord col))).sent 48
      ((wireBits col).flatMap (symbolEvents s.cfg c))).trace.length - s.trace.length = 96 := by
    rw [State.sent, List.length_append, State.withShreg_trace, Nat.add_sub_cancel_left, length_symbols,
      length_wireBits]
  rw [hlen] at hrun
  rw [hrun.run hn, ← hn.1]
  rfl

/-! ### The one result -/

/-- Settles O41, by the row of the position. -/
theorem hostIsBlockedUntilTheOneResult : Obligations.HostIsBlockedUntilTheOneResult := by
  intro s t hn hm hs h
  obtain ⟨p, hp⟩ := Option.isSome_iff_exists.mp hs
  rw [step_eq_sequencerStep hn hm hp] at h
  refine ⟨by simp [State.statusForHost, State.busy, hm], ?_⟩
  obtain ⟨l, q, u, _, hu, ⟨_, rfl⟩ | ⟨_, rfl⟩⟩ | ⟨hd, n, _, rfl⟩ := sequencerStep_next h
  · obtain ⟨x, rfl⟩ := loadColor_writes_shreg hu; exact ⟨rfl, .inl ⟨hm, rfl⟩⟩
  · obtain ⟨x, rfl⟩ := loadColor_writes_shreg hu; exact ⟨rfl, .inr ⟨rfl, _, rfl⟩⟩
  · obtain ⟨i, ch, k, rfl⟩ | ⟨i, ch, k, rfl⟩ | rfl := delay_position_cases hd
    · exact ⟨rfl, .inl ⟨hm, rfl⟩⟩
    · exact ⟨rfl, .inl ⟨hm, rfl⟩⟩
    · exact ⟨rfl, .inr ⟨rfl, _, rfl⟩⟩

/-! ### Every WRITE ends -/

/-- Steps left in a symbol at a stage of it (R117). -/
def BitStage.stepsLeft : BitStage → Nat
  | .setHigh => 4
  | .delayHigh => 3
  | .setLow => 2
  | .delayLow => 1

/-- Steps left in a WRITE of `len` colours at a position, if no transition faults: those of the colours after, of the
slots and bits after, of the symbol, and of the gap (R117). -/
def Pos.stepsLeft (cfg : Config) (len : Nat) : Pos → Nat
  | .bit i ch k stg =>
    96 * (len - 1 - i) + 32 * (2 - ch.slot) + 4 * k.val + stg.stepsLeft + (1 + gapTransitions cfg)
  | .gap .setLow => 2
  | .gap .delay => 1

theorem stepsLeft_pos (cfg : Config) (len : Nat) (p : Pos) : 0 < p.stepsLeft cfg len := by
  cases p with
  | bit i ch k stg => simp only [Pos.stepsLeft]; omega
  | gap stg => cases stg <;> exact Nat.succ_pos _

theorem stepsLeft_gapStart (cfg : Config) (len : Nat) : (gapStart cfg).stepsLeft cfg len = 1 + gapTransitions cfg := by
  cases hg : cfg.params.gapSetLow <;> simp [gapStart, gapTransitions, hg, Pos.stepsLeft]

/-- `next` leaves one step fewer than the last stage of the symbol before (R117). -/
theorem stepsLeft_nextPos (cfg : Config) {len i : Nat} (ch : Channel) (k : Fin 8) (hi : i < len) :
    (nextPos cfg len i ch k).stepsLeft cfg len + 1 = (Pos.bit i ch k .delayLow).stepsLeft cfg len := by
  obtain ⟨k, hk⟩ := k
  cases k with
  | succ j => simp only [nextPos, Pos.stepsLeft, BitStage.stepsLeft]; omega
  | zero =>
    cases ch with
    | green => simp [nextPos, Pos.stepsLeft, BitStage.stepsLeft]; omega
    | red => simp [nextPos, Pos.stepsLeft, BitStage.stepsLeft]; omega
    | blue =>
      rw [show nextPos cfg len i .blue ⟨0, hk⟩ = colorPos cfg len (i + 1) from rfl, colorPos]
      split
      · simp [Pos.stepsLeft, BitStage.stepsLeft]; omega
      · rw [stepsLeft_gapStart]; simp [Pos.stepsLeft, BitStage.stepsLeft]; omega

theorem State.Stands.stepsLeft_after {s : State} {p q : Pos} (h : s.Stands p) (hl : s.len = s.colors.length)
    (hq : p.after s.cfg s.len = some q) : q.stepsLeft s.cfg s.len < p.stepsLeft s.cfg s.len := by
  cases p with
  | bit i ch k stg =>
    have hi : i < s.len := hl ▸ h.index_in_range i ch k stg rfl
    cases stg with
    | delayLow => cases hq; exact Nat.lt_of_succ_le (stepsLeft_nextPos s.cfg ch k hi).le
    | _ => cases hq; simp [Pos.stepsLeft, BitStage.stepsLeft]
  | gap stg =>
    cases stg with
    | setLow => cases hq; exact Nat.lt_succ_self 1
    | delay => cases hq

/-- A position of a WRITE has at most as many steps left as the WRITE has events. -/
theorem State.Stands.stepsLeft_le {s : State} {p : Pos} (h : s.Stands p) (hl : s.len = s.colors.length) :
    p.stepsLeft s.cfg s.len ≤ eventCount s.cfg s.len := by
  cases p with
  | bit i ch k stg =>
    have hi : i < s.len := hl ▸ h.index_in_range i ch k stg rfl
    have hstage : stg.stepsLeft ≤ 4 := by cases stg <;> decide
    simp only [Pos.stepsLeft, eventCount]
    omega
  | gap stg =>
    cases stg with
    | setLow => simp [Pos.stepsLeft, eventCount, gapTransitions, h.gap_opens rfl]
    | delay => simp only [Pos.stepsLeft, eventCount]; omega

/-- A row of the table ends the WRITE, or moves to the position after with the rest of its operands as they were. -/
theorem sequencerStep_moves {p : Pos} {s t : State} (hm : s.mode = .transmitting) (h : sequencerStep p s = .next t) :
    t.mode = .idle ∨
      t.mode = .transmitting ∧ t.seq = p.after s.cfg s.len ∧ t.cfg = s.cfg ∧ t.len = s.len ∧ t.rst = s.rst ∧
        t.rstIn = s.rstIn := by
  obtain ⟨l, q, u, hp, hu, ⟨_, rfl⟩ | ⟨_, rfl⟩⟩ | ⟨hd, n, _, rfl⟩ := sequencerStep_next h
  · rw [after_of_transition s.cfg s.len hp]
    obtain ⟨x, rfl⟩ := loadColor_writes_shreg hu
    exact .inr ⟨hm, rfl, rfl, rfl, rfl, rfl⟩
  · exact .inl rfl
  · obtain ⟨i, ch, k, rfl⟩ | ⟨i, ch, k, rfl⟩ | rfl := delay_position_cases hd
    · exact .inr ⟨hm, rfl, rfl, rfl, rfl, rfl⟩
    · exact .inr ⟨hm, rfl, rfl, rfl, rfl, rfl⟩
    · exact .inl rfl

/-- By induction on a bound of the steps left: each step ends the WRITE or leaves fewer. -/
theorem State.Inv.ends_within {s : State} {p : Pos} {n : Nat} (hi : s.Inv) (hm : s.mode = .transmitting)
    (hs : s.seq = some p) (hn : NoReset n s) (hle : p.stepsLeft s.cfg s.len ≤ n) :
    ∃ k t, k ≤ n ∧ runSteps k s = .next t ∧ t.mode = .idle := by
  induction n generalizing s p with
  | zero => have := stepsLeft_pos s.cfg s.len p; omega
  | succ n ih =>
    obtain ⟨c, hc⟩ := Option.isSome_iff_exists.mp (hi.cal_constructed.mpr (by simp [hm]))
    obtain ⟨t, ht⟩ := (hi.popRst.stands hs).exists_sequencerStep hc
    have hstep : Machine.step s = .next t :=
      (step_eq_sequencerStep (noReset_mono (Nat.le_add_left 1 n) hn) hm hs).trans ht
    obtain hidle | ⟨hmt, hseq, hcfg, hlen, hrst, hrstIn⟩ := sequencerStep_moves (s := s.popRst) hm ht
    · exact ⟨1, t, Nat.le_add_left 1 n, runSteps_succ 0 hstep, hidle⟩
    · obtain ⟨q, hq⟩ := Option.isSome_iff_exists.mp ((hi.step hstep).seq_transmitting.mpr hmt)
      have hless := (hi.stands hs).stepsLeft_after hi.len_colors (hseq.symm.trans hq)
      have hn' : NoReset (1 + n) s := Nat.add_comm n 1 ▸ hn
      have hnt : NoReset n t := hn'.after (hrst.trans hn.1) (hrstIn.trans List.drop_one.symm)
      obtain ⟨k, u, hk, hu, hidle⟩ := ih (hi.step hstep) hmt hq hnt (by
        rw [hcfg, hlen]; exact Nat.le_of_lt_succ (Nat.lt_of_lt_of_le hless hle))
      exact ⟨k + 1, u, Nat.succ_le_succ hk, (runSteps_succ k hstep).trans hu, hidle⟩

/-- Settles O43: a WRITE has at most as many steps left as it has events. -/
theorem everyWriteEnds : Obligations.EveryWriteEnds := by
  intro s hi hm hn
  obtain ⟨p, hp⟩ := Option.isSome_iff_exists.mp (hi.seq_transmitting.mpr hm)
  exact hi.ends_within hm hp hn ((hi.stands hp).stepsLeft_le hi.len_colors)

end Sys2Proof.Machine
end

section
/-! PROOFS. The reference port binding (10_state.md R34, R137): its cycles by the inputs, the countdown of a DELAY, its
resets, and the widths of its registers. -/

namespace Sys2Proof.Machine

variable {wCal wLen : Nat}

/-! ### One cycle, by its inputs -/

theorem tick_rst {io : PortIn wCal wLen} (h : io.rst = true) (s : State) : tick io s = .next s.assertReset := by
  simp only [tick, h, if_true]

theorem tick_release {io : PortIn wCal wLen} {s : State} (h : io.rst = false) (hs : s.rst = true) :
    tick io s =
      .next ({ s with rst := false, calInit := io.calInit.toNat }.constructed io.calInit.toNat io.answer) := by
  simp [tick, h, hs]

theorem tick_running {io : PortIn wCal wLen} {s : State} {p : Pos} (h : io.rst = false) (hs : s.rst = false)
    (hm : s.mode = .transmitting) (hp : s.seq = some p) : tick io s = tickRunning p io s := by
  simp [tick, h, hs, hm, hp]

/-- Settles O23: the refusals of the two operations, and a cycle that reads neither `start` nor `len`. -/
theorem operationsAreAdmittedByMode : Obligations.OperationsAreAdmittedByMode := by
  refine ⟨fun s cal hm => execConstruct_not_absent hm cal, fun s cs hm => execWrite_not_idle hm cs,
    fun wCal wLen s io len h => ?_⟩
  have hm : io.rst = true ∨ s.mode ≠ .idle := by
    obtain hb | hm | hr := h
    · exact .inr (by simp [of_decide_eq_true hb])
    · exact .inr (by simp [hm])
    · exact .inl hr
  obtain hr | hm := hm
  · exact (tick_rst (io := { io with start := true, len := len }) hr s).trans
      (tick_rst (io := { io with start := false, len := len }) hr s).symm
  · unfold tick
    cases hmode : s.mode with
    | idle => exact absurd hmode hm
    | absent => rfl
    | transmitting => rfl

/-! ### A DELAY, cycle by cycle -/

theorem tickMany_succ {io : PortIn wCal wLen} {s t : State} (n : Nat) (h : tick io s = .next t) :
    tickMany io (n + 1) s = tickMany io n t := by
  simp only [tickMany, h]

/-- A cycle inside a DELAY: DCNT goes down, and in the cycle it would reach 0 the DELAY returns (R137). -/
theorem tick_countDelay {io : PortIn wCal wLen} {s : State} {p : Pos} {d : Nat} (h : io.rst = false)
    (hs : s.rst = false) (hm : s.mode = .transmitting) (hp : s.seq = some p) (hd : p.transition = none)
    (hc : s.dcnt = some d) : tick io s = countDelay p d s := by
  rw [tick_running h hs hm hp, tickRunning, hd, hc]

/-- After `j < d` cycles DCNT has counted `j` down, by induction on `j`. -/
theorem tickMany_counts {io : PortIn wCal wLen} {s : State} {p : Pos} (h : io.rst = false)
    (hs : s.rst = false) (hm : s.mode = .transmitting) (hp : s.seq = some p) (hd : p.transition = none) (j : Nat)
    {d : Nat} (hj : j < d) : tickMany io j (s.withDcnt (some d)) = .next (s.withDcnt (some (d - j))) := by
  induction j generalizing d with
  | zero => rfl
  | succ j ih =>
    have hcycle : tick io (s.withDcnt (some d)) = .next (s.withDcnt (some (d - 1))) := by
      rw [tick_countDelay (s := s.withDcnt (some d)) h hs hm hp hd rfl, countDelay, if_neg (by omega)]
      rfl
    rw [tickMany_succ j hcycle, ih (by omega), Nat.sub_sub, Nat.add_comm]

theorem tickMany_add {io : PortIn wCal wLen} {s t : State} {m : Nat} (n : Nat) (h : tickMany io m s = .next t) :
    tickMany io (m + n) s = tickMany io n t := by
  induction m generalizing s with
  | zero => cases h; rw [Nat.zero_add]
  | succ m ih =>
    rw [Nat.succ_add]
    simp only [tickMany] at h ⊢
    split at h
    · rename_i u hu; exact ih h
    · cases h
    · cases h

/-- A DELAY loaded with `d` returns after `d` cycles. -/
theorem tickMany_returns {io : PortIn wCal wLen} {s : State} {p : Pos} {d n : Nat} (h : io.rst = false)
    (hs : s.rst = false) (hm : s.mode = .transmitting) (hp : s.seq = some p) (hd : p.transition = none)
    (hpos : 1 ≤ d) (hn : delayArgument p s = .ok n) :
    tickMany io d (s.withDcnt (some d)) = .next (afterDelay p (delayFor n s)) := by
  obtain ⟨j, rfl⟩ := Nat.exists_eq_add_of_le' hpos
  have hlast : tick io (s.withDcnt (some 1)) = .next (afterDelay p (delayFor n s)) := by
    rw [tick_countDelay (s := s.withDcnt (some 1)) h hs hm hp hd rfl, countDelay, if_pos (Nat.le_refl 1),
      show delayArgument p (s.withDcnt (some 1)) = .ok n from hn]
    rfl
  rw [tickMany_add 1 (tickMany_counts h hs hm hp hd j (Nat.lt_add_one j)), Nat.add_sub_cancel_left]
  exact tickMany_succ 0 hlast

/-- Settles O54: the countdown, and its last cycle. -/
theorem portDelayCountsDown : Obligations.PortDelayCountsDown := by
  intro wCal wLen io s p d n h hs hm hp hd hc hpos hn
  have hself : s.withDcnt (some d) = s := by rw [← hc]; rfl
  have hcounts := fun j => tickMany_counts h hs hm hp hd j (d := d)
  have hreturns := tickMany_returns h hs hm hp hd hpos hn
  rw [hself] at hreturns
  simp only [hself] at hcounts
  exact ⟨hcounts, hreturns⟩

/-! ### A transition and the DELAY after it -/

/-- A position that a transition leads to issues a DELAY (R92). -/
theorem delay_after_transition {p q : Pos} {l : Level} (h : p.transition = some (l, q)) : q.transition = none := by
  obtain ⟨i, ch, k, rfl, rfl⟩ | ⟨i, ch, k, rfl, rfl⟩ | ⟨rfl, rfl⟩ := transition_cases h <;> rfl

/-- The port's colour, once converted, is the wire word of the colour it packs (R71). -/
theorem loadPort_packRgb {p : Pos} {s : State} {i : Nat} {col : Color} (hp : p.readsColor = some i)
    (hcol : memRead i s = some col) : loadColor p s = .ok (loadPort p (packRgb col) s) := by
  simp only [loadColor, loadPort, hp, hcol, packRgb, rgbToWire_threeBytes, wireWord]

theorem loadPort_writes_shreg (p : Pos) (rgb : Word24) (s : State) : ∃ x, loadPort p rgb s = s.withShreg x := by
  unfold loadPort
  split
  · exact ⟨_, rfl⟩
  · exact ⟨s.shreg, rfl⟩

/-- Settles O55: the transition's cycle loads DCNT, which counts down; a DELAY of 0 returns in that cycle. -/
theorem portCyclesFollowTheSequencer : Obligations.PortCyclesFollowTheSequencer := by
  intro wCal wLen io s u p q l n h herr hs hm _ hp ht hu hn
  refine ⟨?_, fun i col hr hcol hrgb => by rw [hrgb]; exact loadPort_packRgb hr hcol⟩
  have hfirst : tick io s = enterDelay q u := by
    rw [tick_running h hs hm hp, tickRunning, ht, hu]
    simp [PortIn.answer, herr]
  cases n with
  | zero =>
    rw [enterDelay, hn] at hfirst
    exact tickMany_succ 0 hfirst
  | succ n =>
    rw [enterDelay, hn] at hfirst
    obtain ⟨x, hx⟩ := loadPort_writes_shreg p io.colRgb s
    rw [hx] at hu
    subst hu
    rw [tickMany_succ _ hfirst]
    exact tickMany_returns h hs hm rfl (delay_after_transition ht) (Nat.le_add_left 1 n) hn

/-! ### Reset -/

/-- Settles O56: a cycle that samples `rst` 1, and the cycle in which it falls. -/
theorem portResetWins : Obligations.PortResetWins := by
  intro wCal wLen io s
  refine ⟨fun h => ⟨_, tick_rst h s, rfl, rfl, rfl, rfl, ?_⟩, fun h hs _ herr => ⟨_, tick_release h hs, ?_⟩⟩
  · simp [portOut]
  · have hok : io.answer = .ok := by simp [PortIn.answer, herr]
    rw [hok, constructed_ok]
    exact ⟨rfl, rfl, rfl, rfl⟩

/-! ### What a cycle can do -/

/-- Everything the first cycle of a DELAY can do. -/
theorem enterDelay_next {p : Pos} {s t : State} (h : enterDelay p s = .next t) :
    ∃ n, delayArgument p s = .ok n ∧ (t = afterDelay p (delayFor n s) ∨ t = s.withDcnt (some n)) := by
  unfold enterDelay at h
  split at h
  · cases h
  · rename_i n hn
    split at h
    · cases h; exact ⟨n, hn, .inl rfl⟩
    · cases h; exact ⟨n, hn, .inr rfl⟩

/-- Everything a later cycle of a DELAY can do. -/
theorem countDelay_next {p : Pos} {d : Nat} {s t : State} (h : countDelay p d s = .next t) :
    (∃ n, t = afterDelay p (delayFor n s)) ∨ t = s.withDcnt (some (d - 1)) := by
  unfold countDelay at h
  split at h
  · split at h
    · cases h
    · rename_i n _; cases h; exact .inl ⟨n, rfl⟩
  · cases h; exact .inr rfl

/-- Everything a cycle at a position can do: a transition that enters the DELAY after it or aborts, or a cycle of the
position's DELAY. -/
theorem tickRunning_next {io : PortIn wCal wLen} {p : Pos} {s t : State} (h : tickRunning p io s = .next t) :
    (∃ l q x, p.transition = some (l, q) ∧
      enterDelay q (((s.withShreg x).answered l .ok).withSeq (some q)) = .next t) ∨
    (∃ l x, t = ((s.withShreg x).answered l .fault).raisePinFault) ∨
    (p.transition = none ∧ ((∃ d, s.dcnt = some d ∧ countDelay p d s = .next t) ∨ enterDelay p s = .next t)) := by
  unfold tickRunning at h
  obtain ⟨x, hx⟩ := loadPort_writes_shreg p io.colRgb s
  rw [hx] at h
  split at h
  · rename_i l q hq
    split at h
    · exact .inl ⟨l, q, x, hq, h⟩
    · cases h; exact .inr (.inl ⟨l, x, rfl⟩)
  · rename_i hq
    refine .inr (.inr ⟨hq, ?_⟩)
    split at h
    · rename_i d hd; exact .inl ⟨d, hd, h⟩
    · exact .inr h

/-- Everything a cycle can do: a reset, the construction at its release, nothing, the start of a WRITE, or a cycle at a
position. -/
theorem tick_next {io : PortIn wCal wLen} {s t : State} (h : tick io s = .next t) :
    t = s.assertReset ∨
    (∃ a, t = { s with rst := false, calInit := io.calInit.toNat }.constructed io.calInit.toNat a) ∨
    t = s ∨ t = s.startWrite io.len.toNat [] ∨ ∃ p, s.seq = some p ∧ tickRunning p io s = .next t := by
  unfold tick at h
  split at h
  · cases h; exact .inl rfl
  · split at h
    · cases h; exact .inr (.inl ⟨_, rfl⟩)
    · split at h
      · cases h; exact .inr (.inr (.inl rfl))
      · split at h
        · cases h; exact .inr (.inr (.inr (.inl rfl)))
        · cases h; exact .inr (.inr (.inl rfl))
      · split at h
        · rename_i p hp; exact .inr (.inr (.inr (.inr ⟨p, hp, h⟩)))
        · cases h; exact .inr (.inr (.inl rfl))

/-! ### Widths -/

/-- The index of a position lies below `len` (R24). -/
def Pos.IndexBelow (len : Nat) (p : Pos) : Prop :=
  ∀ i ch k stg, p = .bit i ch k stg → i < len

theorem Pos.IndexBelow.bit {len i : Nat} {ch : Channel} {k : Fin 8} {stg : BitStage} (h : i < len) :
    (Pos.bit i ch k stg).IndexBelow len := by
  rintro _ _ _ _ ⟨⟩
  exact h

theorem Pos.IndexBelow.gapStart (cfg : Config) (len : Nat) : (gapStart cfg).IndexBelow len :=
  fun i ch k stg h => (gapStart_ne_bit cfg i ch k stg h).elim

theorem Pos.IndexBelow.startPos (cfg : Config) (len : Nat) : (startPos cfg len).IndexBelow len := by
  obtain ⟨hpos, h⟩ | h := startPos_cases cfg len <;> rw [h]
  · exact .bit hpos
  · exact .gapStart cfg len

theorem Pos.IndexBelow.transition {len : Nat} {p q : Pos} {l : Level} (h : p.IndexBelow len)
    (hp : p.transition = some (l, q)) : q.IndexBelow len := by
  obtain ⟨i, ch, k, rfl, rfl⟩ | ⟨i, ch, k, rfl, rfl⟩ | ⟨rfl, rfl⟩ := transition_cases hp
  · exact .bit (h i ch k _ rfl)
  · exact .bit (h i ch k _ rfl)
  · exact nofun

theorem Pos.IndexBelow.nextPos {len i : Nat} (cfg : Config) (h : i < len) (ch : Channel) (k : Fin 8) :
    (nextPos cfg len i ch k).IndexBelow len := by
  obtain ⟨_, _, hp⟩ | ⟨hlt, hp⟩ | hp := nextPos_cases cfg len i ch k <;> rw [hp]
  · exact .bit h
  · exact .bit hlt
  · exact .gapStart cfg len

theorem State.PortInv.indexBelow {s : State} {p : Pos} (hi : s.PortInv wLen) (hp : s.seq = some p) :
    p.IndexBelow s.len := by
  rintro i ch k stg rfl
  exact hi.index_below_len i ch k stg hp

/-- A WRITE that moves to a position below its `len` keeps the widths. -/
theorem State.PortInv.withSeq {s : State} {q : Pos} (hi : s.PortInv wLen) (hq : q.IndexBelow s.len) :
    (s.withSeq (some q)).PortInv wLen :=
  { hi with index_below_len := by rintro i ch k stg ⟨⟩; exact hq i ch k stg rfl }

theorem State.PortInv.withDcnt {s : State} {d : Nat} (hi : s.PortInv wLen) (hd : d < 2 ^ s.cfg.params.wDly) :
    (s.withDcnt (some d)).PortInv wLen :=
  { hi with dcnt_width := by rintro _ ⟨⟩; exact hd }

theorem State.PortInv.answered {s : State} (hi : s.PortInv wLen) (x : Option Word24) (l : Level) (a : Answer) :
    ((s.withShreg x).answered l a).PortInv wLen := { hi with }

theorem State.PortInv.delayFor {s : State} (hi : s.PortInv wLen) (n : Nat) : (delayFor n s).PortInv wLen :=
  { hi with dcnt_width := nofun }

theorem State.PortInv.assertReset (s : State) : s.assertReset.PortInv wLen :=
  ⟨nofun, Nat.two_pow_pos wLen, nofun, nofun⟩

theorem State.PortInv.raisePinFault {s : State} (hi : s.PortInv wLen) : s.raisePinFault.PortInv wLen :=
  ⟨nofun, Nat.two_pow_pos wLen, hi.cal_width, nofun⟩

theorem State.PortInv.completeWrite (s : State) : s.completeWrite.PortInv wLen := by
  refine ⟨nofun, Nat.two_pow_pos wLen, fun c h => ?_, nofun⟩
  obtain ⟨c', _, rfl⟩ := Option.map_eq_some_iff.mp h
  exact nextCal_lt s.cfg c'

theorem State.PortInv.constructed {s : State} (hi : s.PortInv wLen) (ci : BitVec s.cfg.params.wCal) (a : Answer) :
    ({ s with rst := false, calInit := ci.toNat }.constructed ci.toNat a).PortInv wLen := by
  cases a with
  | ok => exact { hi with cal_width := by rintro _ ⟨⟩; exact ci.isLt }
  | fault => exact { hi with }

theorem State.PortInv.startWrite {s : State} (hi : s.PortInv wLen) (len : BitVec wLen) :
    (s.startWrite len.toNat []).PortInv wLen :=
  { hi with
    index_below_len := by rintro i ch k stg h; exact Pos.IndexBelow.startPos s.cfg _ i ch k stg (Option.some.inj h)
    len_width := len.isLt }

/-- The return of a position's DELAY (R92). -/
theorem State.PortInv.afterDelay {s : State} {p : Pos} (hi : s.PortInv wLen) (hp : s.seq = some p)
    (hd : p.transition = none) : (afterDelay p s).PortInv wLen := by
  obtain ⟨i, ch, k, rfl⟩ | ⟨i, ch, k, rfl⟩ | rfl := delay_position_cases hd
  · exact hi.withSeq (.bit (hi.index_below_len i ch k _ hp))
  · exact hi.withSeq (.nextPos s.cfg (hi.index_below_len i ch k _ hp) ch k)
  · exact .completeWrite s

/-- The first cycle of a position's DELAY: the argument fits DCNT (R116). -/
theorem State.PortInv.enterDelay {s t : State} {p : Pos} (hi : s.PortInv wLen) (hp : s.seq = some p)
    (hd : p.transition = none) (h : enterDelay p s = .next t) : t.PortInv wLen := by
  obtain ⟨n, hn, rfl | rfl⟩ := enterDelay_next h
  · exact (hi.delayFor n).afterDelay hp hd
  · cases hc : s.cal with
    | none => simp [delayArgument, hc] at hn
    | some c => exact hi.withDcnt (delayArgument_lt hc (hi.cal_width c hc) hd hn)

theorem State.PortInv.countDelay {s t : State} {p : Pos} {d : Nat} (hi : s.PortInv wLen) (hp : s.seq = some p)
    (hd : p.transition = none) (hc : s.dcnt = some d) (h : countDelay p d s = .next t) : t.PortInv wLen := by
  obtain ⟨n, rfl⟩ | rfl := countDelay_next h
  · exact (hi.delayFor n).afterDelay hp hd
  · exact hi.withDcnt (Nat.lt_of_le_of_lt (Nat.sub_le d 1) (hi.dcnt_width d hc))

theorem State.PortInv.tickRunning {io : PortIn wCal wLen} {s t : State} {p : Pos} (hi : s.PortInv wLen)
    (hp : s.seq = some p) (h : tickRunning p io s = .next t) : t.PortInv wLen := by
  obtain ⟨l, q, x, hq, h⟩ | ⟨l, x, rfl⟩ | ⟨hd, ⟨d, hc, h⟩ | h⟩ := tickRunning_next h
  · exact ((hi.answered x l .ok).withSeq ((hi.indexBelow hp).transition hq)).enterDelay rfl
      (delay_after_transition hq) h
  · exact (hi.answered x l .fault).raisePinFault
  · exact hi.countDelay hp hd hc h
  · exact hi.enterDelay hp hd h

theorem State.PortInv.tick {s t : State} {io : PortIn s.cfg.params.wCal wLen} (hi : s.PortInv wLen)
    (h : tick io s = .next t) : t.PortInv wLen := by
  obtain rfl | ⟨a, rfl⟩ | rfl | rfl | ⟨p, hp, h⟩ := tick_next h
  · exact .assertReset s
  · exact hi.constructed io.calInit a
  · exact hi
  · exact hi.startWrite io.len
  · exact hi.tickRunning hp h

/-- The index being fetched is that of the position (R34). -/
theorem State.PortInv.colIdx_lt {s : State} {i : Nat} (hi : s.PortInv wLen) (h : s.colIdx = some i) : i < 2 ^ wLen := by
  unfold State.colIdx at h
  split at h
  · rename_i p hp
    obtain rfl := readsColor_eq_some h
    exact Nat.lt_trans (hi.index_below_len _ _ _ _ (position_eq_some.mp hp).2) hi.len_width
  · cases h

theorem State.PortInv.reset (wLen : Nat) : State.reset.PortInv wLen :=
  ⟨nofun, Nat.two_pow_pos wLen, by rintro _ ⟨⟩; exact (Config.calInit Config.taken.params.wCal).isLt, nofun⟩

/-- Settles O60: each kind of cycle keeps the widths, and so the port shows the whole index. -/
theorem portRegistersKeepTheirWidths : Obligations.PortRegistersKeepTheirWidths := by
  refine ⟨.reset, fun wLen s t io hi h => ⟨hi.tick h, ?_⟩⟩
  cases hc : t.colIdx with
  | none => simp [portOut, hc]
  | some i => simp [portOut, hc, Nat.mod_eq_of_lt ((hi.tick h).colIdx_lt hc)]

end Sys2Proof.Machine
end

section
/-! PROOFS. The wall-clock reading of a trace (70_reset_and_hazards.md R188, R194): the phases of a symbol, the
stretches, and how long the line has been Low after a frame. -/

namespace Sys2Proof.Machine

/-! ### The phases of a symbol -/

/-- The period of a bit, which does not depend on it (R194). -/
theorem wallBitPeriod_eq (pl : Platform) (cfg : Config) (c : Nat) (bit : Bool) :
    wallBitPeriod pl cfg c bit = (cfg.params.lMult + cfg.params.sMult) * c + 2 * pl.ovh := by
  cases bit <;> simp [wallBitPeriod, wallHigh, wallLow, hiCycles, loCycles, longCycles, shortCycles] <;> ring

/-- Settles O57: the phases event by event, and the sum of the two products. -/
theorem wallClockBitPeriodIsEqual : Obligations.WallClockBitPeriodIsEqual := by
  intro pl cfg c bit l age lv
  refine ⟨?_, wallBitPeriod_eq pl cfg c bit⟩
  cases lv <;> simp [symbolEvents, phases, lineAfter, delayCycles, Platform.ovh, Level.toLine, Nat.add_assoc]

/-! ### Stretches -/

/-- With no stretch a trace lasts at least its nominal cycles: the overheads only add (R136). -/
theorem nominalCycles_le_wallCycles (pl : Platform) (t : List Event) : nominalCycles t ≤ wallCycles pl t [] := by
  induction t with
  | nil => exact Nat.le_refl 0
  | cons e t ih =>
    have hcons : nominalCycles (e :: t) = e.cycles + nominalCycles t := List.sum_cons
    cases e <;> simp only [hcons, Event.cycles, wallCycles, delayCycles, List.tail_nil, List.headD_nil] <;> omega

theorem wallCycles_le_stretched (pl : Platform) (t : List Event) (st : List Nat) :
    wallCycles pl t [] ≤ wallCycles pl t st := by
  induction t generalizing st with
  | nil => exact Nat.le_refl 0
  | cons e t ih =>
    cases e with
    | set l a => exact Nat.add_le_add_left (ih st) _
    | delay n => exact Nat.add_le_add (Nat.add_le_add_left (Nat.zero_le _) _) (ih st.tail)

/-- The levels of the phases do not depend on their lengths. -/
theorem phases_levels (pl : Platform) (t : List Event) (l : Line) (age age' : Nat) (st st' : List Nat) :
    (phases pl l age t st).map Phase.level = (phases pl l age' t st').map Phase.level := by
  induction t generalizing l age age' st st' with
  | nil => rfl
  | cons e t ih =>
    cases e with
    | set lv a => exact congrArg (l :: ·) (ih ..)
    | delay n => exact ih ..

theorem wallCycles_of_noDisturb (pl : Platform) (t : List Event) {st : List Nat} (h : noDisturb st = true) :
    wallCycles pl t st = wallCycles pl t [] := by
  induction t generalizing st with
  | nil => rfl
  | cons e t ih =>
    cases e with
    | set l a => exact congrArg (pl.ovhSet + ·) (ih h)
    | delay n =>
      cases st with
      | nil => rfl
      | cons x xs =>
        obtain ⟨rfl, hxs⟩ : x = 0 ∧ noDisturb xs = true := by simpa [noDisturb] using h
        exact congrArg (delayCycles pl n 0 + ·) (ih hxs)

/-- Settles O58: each of the four claims by induction on the trace. -/
theorem stretchOnlyLengthens : Obligations.StretchOnlyLengthens := fun pl t st l age =>
  ⟨nominalCycles_le_wallCycles pl t, wallCycles_le_stretched pl t st, phases_levels pl t l age age st [],
    wallCycles_of_noDisturb pl t⟩

/-! ### How long the line has been Low -/

/-- A symbol leaves the line Low, whatever it was before. -/
theorem lowAge_symbol (pl : Platform) (cfg : Config) (c : Nat) (bit : Bool) (l : Line) (age : Nat) (t : List Event)
    (st : List Nat) :
    ∃ age' st', lowAge pl l age (symbolEvents cfg c bit ++ t) st = lowAge pl .low age' t st' := by
  cases l <;> exact ⟨_, _, rfl⟩

/-- After symbols the line is Low, or as it was if there are none. -/
theorem lowAge_symbols (pl : Platform) (cfg : Config) (c : Nat) (bits : List Bool) (l : Line) (age : Nat)
    (t : List Event) (st : List Nat) :
    ∃ age' st', lowAge pl l age (bits.flatMap (symbolEvents cfg c) ++ t) st =
      lowAge pl (if bits = [] then l else .low) age' t st' := by
  induction bits generalizing l age st with
  | nil => exact ⟨age, st, rfl⟩
  | cons b bs ih =>
    obtain ⟨age₁, st₁, h₁⟩ := lowAge_symbol pl cfg c b l age (bs.flatMap (symbolEvents cfg c) ++ t) st
    obtain ⟨age₂, st₂, h₂⟩ := ih .low age₁ st₁
    refine ⟨age₂, st₂, ?_⟩
    rw [List.flatMap_cons, List.append_assoc, h₁, h₂]
    simp

/-- The gap's DELAY ages a Low line by its argument at least. -/
theorem gapCycles_le_lowAge (pl : Platform) (cfg : Config) (c : Nat) {l : Line} (age : Nat) (st : List Nat)
    (h : cfg.params.gapSetLow = true ∨ l = .low) : gapCycles cfg c ≤ lowAge pl l age (gapEvents cfg c) st := by
  cases hg : cfg.params.gapSetLow with
  | false =>
    obtain rfl : l = .low := by simpa [hg] using h
    simp [gapEvents, hg, lowAge, delayCycles]; omega
  | true => cases l <;> simp [gapEvents, hg, lowAge, lineAfter, delayCycles] <;> omega

/-- A gap that meets P3 makes the next frame fresh (R188). -/
theorem fresh_of_timingP3 {pl : Platform} {cfg : Config} {c n : Nat} (h : timingP3 pl cfg c = true)
    (hn : gapCycles cfg c ≤ n) : fresh pl n = true :=
  decide_eq_true ((of_decide_eq_true h).le.trans (Nat.mul_le_mul_right nsPerS hn))

/-- Settles O59: the symbols leave the line Low, and the gap ages it. -/
theorem nextFrameIsFreshAfterOk : Obligations.NextFrameIsFreshAfterOk := by
  intro pl cfg c cs l age st h
  suffices hage : gapCycles cfg c ≤ lowAge pl l age (frameEvents cfg c cs) st from
    ⟨hage, fun hp3 => fresh_of_timingP3 hp3 hage⟩
  obtain ⟨age', st', hsymbols⟩ := lowAge_symbols pl cfg c (frameBits cs) l age (gapEvents cfg c) st
  rw [frameEvents, hsymbols]
  refine gapCycles_le_lowAge pl cfg c age' st' ?_
  obtain hne | hg | rfl := h
  · have hbits : frameBits cs ≠ [] := by
      obtain ⟨col, cols, rfl⟩ := List.exists_cons_of_ne_nil hne
      simp [frameBits_cons, wireBits, byteBits]
    exact .inr (if_neg hbits)
  · exact .inl hg
  · exact .inr (ite_self _)

end Sys2Proof.Machine
end
